-- ==== Sys2Proof/Word.lean ====
section
/-! DEFINITION. The word types of the block: bytes, 32-bit words, and the 6- and 24-bit values of a group. -/

namespace Sys2Proof

/-- A byte of a buffer, or the ASCII code of one character of a text (R87). -/
abbrev Byte := BitVec 8

/-- A register value, a host offset or a command word: REG_WIDTH and OFFSET_WIDTH are 32 (R7). -/
abbrev Word := BitVec 32

/-- An alphabet index: INDEX_WIDTH is 6 (R7). -/
abbrev Sextet := BitVec 6

/-- The group accumulator: ACC_WIDTH is 24 (R7). -/
abbrev Acc := BitVec 24

end Sys2Proof
end

