-- ==== Sys2Proof/Config.lean ====
section
/-! DEFINITION. What an implementation of the block fixes (R7), and the free values (R11, R60). -/

namespace Sys2Proof

/-- The OPEN parameters of the block (R7, D3). They are fixed for a machine and stand in its state beside the registers
SRC_CAP and DST_CAP that show them, so that a claim about every state is a claim about every depth. -/
structure Config.Params where
  /-- SRC_DEPTH, the number of bytes of SRC -/
  srcDepth : Nat
  /-- DST_DEPTH, the number of bytes of DST -/
  dstDepth : Nat
  deriving DecidableEq, Repr

/-- The test configuration TC1 (R8). -/
def Config.tc1 : Config.Params := ⟨64, 64⟩

/-- The second test configuration TC2, of vectors W7 to W9 only (95_test_vectors.md §4). -/
def Config.tc2 : Config.Params := ⟨64, 2⟩

/-- `Draw8()` (R11): the value of draw number `n`, "any value in 0..255, under no law, independent of every other draw".
It has no body: nothing can be proved of its values (log 3). -/
opaque Config.draw8 : Nat → Byte

/-- BLOCK_BASE (R60, P1), where the window sits in the system's address map. OPEN, no body, and no rule depends on it (log 5). -/
opaque Config.blockBase : Nat

/-- The system address of a host offset: "the spec uses offsets relative to that base throughout" (R60). -/
def Config.systemAddress (off : Word) : Nat := Config.blockBase + off.toNat

end Sys2Proof
end

