-- ==== Sys2Proof/Syntax.lean ====
section
/-! DEFINITION. The instructions (one constructor per row of opcode_table.json), the host transaction record, and the
statements of host programs (R108, R109). -/

namespace Sys2Proof

/-- The two alphabets (R7, R100). -/
inductive Alphabet where
  | std
  | url
  deriving DecidableEq, Repr

/-- The instructions: the six command words (R93), which carry no operands (R97), and the four host transactions (R96). -/
inductive Instr where
  | nop                          -- R190
  | encStd                       -- R122
  | decStd                       -- R162
  | clrstat                      -- R192
  | encUrl                       -- R123
  | decUrl                       -- R163
  | r8 (off : Word)              -- R210
  | r32 (off : Word)             -- R212
  | w8 (off : Word) (data : Word)   -- R211: DATA is 32 bits wide, DATA[7:0] is written
  | w32 (off : Word) (data : Word)  -- R213
  deriving DecidableEq, Repr

/-- A host transaction as it is issued: the record of format HOSTTXN (R96). -/
structure HostTxn where
  kind : BitVec 2
  off  : Word
  data : Word
  deriving DecidableEq, Repr

/-- A statement of a host program with its labels resolved to statement indices (R108, R214). -/
inductive Stmt where
  | txn (t : HostTxn)
  | bnz (mask : Word) (target : Nat)
  | bz (mask : Word) (target : Nat)
  | halt
  deriving DecidableEq, Repr

/-- The four commands of format CMD with their alphabet as an operand: what `decode_cmd` of R95 answers, but for RESERVED. -/
inductive Command where
  | nop
  | clrstat
  | enc (a : Alphabet)
  | dec (a : Alphabet)
  deriving DecidableEq, Repr

/-- A line of a host program as it is written (R108), the pseudo-instructions of R109 among them. -/
inductive SrcLine where
  | r8 (off : Word)
  | r32 (off : Word)
  | w8 (off : Word) (data : Byte)
  | w32 (off : Word) (data : Word)
  | label (name : String)
  | bnz (mask : Word) (label : String)
  | bz (mask : Word) (label : String)
  | halt
  | wait
  | load (text : String)
  | loadb (bytes : List Byte)
  | run (cmd : Word)
  deriving DecidableEq, Repr

end Sys2Proof
end

