-- ==== Sys2Proof/Machine/State.lean ====
section
/-! DEFINITION. The machine's state as plain data: the block (R45), its parameters (R7), the host agent (R108, R214, R247), and
the model's own two fields, the schedule and the draw counter. -/

namespace Sys2Proof.Machine

/-- A buffer: its written cells as (position, byte) pairs, positions strictly rising. A position that is not listed is an
`unwritten` cell (R40). -/
abbrev Memory := List Host.Cell

/-- The canonical form of a buffer: positions strictly rising. No entry can equal what an unlisted position reads as, since an
unlisted cell holds no value (R40, log 7). -/
abbrev Memory.Wf (m : Memory) : Prop := m.Pairwise (fun x y => x.1 < y.1)

/-- The error codes of R240. NONE is the ERRCODE 0 and no constructor. -/
inductive ErrCode where
  | badCmd
  | lenRange
  | badLength
  | badChar
  | badPad
  | dstOverflow
  deriving DecidableEq, Repr

/-- The whole block state, the record of R45. -/
@[ext]
structure BlockState where
  /-- STATUS.BUSY (R25) -/
  busy : Bool
  /-- STATUS.DONE (R26) -/
  done : Bool
  /-- STATUS.ERR (R27) -/
  err : Bool
  /-- STATUS.OVR (R28) -/
  ovr : Bool
  /-- STATUS.ERRCODE (R29) -/
  errcode : BitVec 4
  /-- SRC_LEN (R32) -/
  srcLen : Word
  /-- DST_LEN (R33) -/
  dstLen : Word
  /-- ERR_INDEX (R34) -/
  errIdx : Word
  /-- OP_L: false = 0 = encode, true = 1 = decode (R39) -/
  opL : Bool
  /-- ALPH_L: false = 0 = STD, true = 1 = URL (R39) -/
  alphL : Bool
  /-- the SRC buffer (R37) -/
  src : Memory
  /-- the DST buffer (R38) -/
  dst : Memory
  deriving DecidableEq, Repr

/-- The response to a host transaction (R96). -/
inductive Response where
  /-- `OK(rdata)`, to a read -/
  | okData (rdata : Word)
  /-- `OK`, to a write -/
  | ok
  | busError
  deriving DecidableEq, Repr

/-- What the host agent is doing (R108, R214, R247). -/
inductive HostStatus where
  | running
  /-- stopped at HALT, or past the last statement (R214) -/
  | halted
  /-- the fault state, which names the statement (R247) -/
  | faulted (stmt : Nat)
  deriving DecidableEq, Repr

/-- The host's own state, "its program and its pc" (R45), with the last read value (R108) and the last response (R96). -/
@[ext]
structure HostAgent where
  program : List Stmt
  pc : Nat
  /-- the rdata of the most recent R8 or R32; undefined (none) before the first read -/
  lastRead : Option Word
  status : HostStatus
  /-- the response of the most recent transaction, none before the first (log 16) -/
  resp : Option Response
  deriving DecidableEq, Repr

/-- A turn of the schedule: who the environment lets move (R249, R270). -/
inductive Turn where
  | host
  | block
  | reset
  deriving DecidableEq, Repr

@[ext]
structure State where
  /-- the block (R45) -/
  block : BlockState
  /-- SRC_DEPTH and DST_DEPTH, which SRC_CAP and DST_CAP show (R7, R35, R36) -/
  params : Config.Params
  /-- the host agent (R20) -/
  host : HostAgent
  /-- the model's own: the turns still to come (log 1) -/
  turns : List Turn
  /-- the model's own: how many draws have been taken (log 3) -/
  draws : Nat
  deriving DecidableEq, Repr

/-- Why the machine stops. -/
inductive Fault where
  /-- Raised by step when the host is in its fault state (R247), the block is idle and no reset is next: nothing can move, and
  the state is "never final". Safe: the machine stops (log 11). -/
  | hostFaulted (stmt : Nat)
  deriving DecidableEq, Repr

/-- Why a term is outside the model. -/
inductive Refusal where
  /-- An instruction without a meaning, by its mnemonic. No arm of exec raises it. -/
  | notModelled (mnemonic : String)
  /-- Raised by step when a branch of the host's program names no statement: "the program ill-formed, and the model refuses it"
  (R214, V8). Safe (log 13). -/
  | illFormedProgram
  deriving DecidableEq, Repr

/-- The three outcomes, over this machine's state and reasons. -/
abbrev Result := Host.Outcome State Fault Refusal

/-- The block after reset (R44). OP_L and ALPH_L are unspecified there; the model names 0 (log 6). -/
def BlockState.reset : BlockState where
  busy := false
  done := false
  err := false
  ovr := false
  errcode := 0
  srcLen := 0
  dstLen := 0
  errIdx := 0
  opL := false
  alphL := false
  src := []
  dst := []

/-- The host agent with no program yet (log 10). -/
def HostAgent.initial : HostAgent where
  program := []
  pc := 0
  lastRead := none
  status := .running
  resp := none

/-- The machine right after reset (R44), with the depths of TC1 (log 4), no program (log 10), an empty schedule (log 1) and no
draw taken (log 3). -/
def State.reset : State where
  block := .reset
  params := Config.tc1
  host := .initial
  turns := []
  draws := 0

end Sys2Proof.Machine
end

