-- ==== Sys2Proof/Machine/Operands.lean ====
section
/-! DEFINITION. Operands: the offsets of the register map (R22), the buffer windows and byte lanes (R63, R209), and the alphabet
that the latch selects. -/

namespace Sys2Proof.Machine

/-! ### The register map (R22, R108) -/

def offCmd : Word := 0x00000
def offStatus : Word := 0x00004
def offSrcLen : Word := 0x00008
def offDstLen : Word := 0x0000C
def offErrIndex : Word := 0x00010
def offSrcCap : Word := 0x00014
def offDstCap : Word := 0x00018

/-- `SRC_BASE` (R209). -/
def srcBase : Nat := 0x10000

/-- `DST_BASE` (R209). -/
def dstBase : Nat := 0x20000

/-- `inSrc(off, w)` (R209), on the naturals, with no 32-bit wrap. -/
def inSrc (p : Config.Params) (off : Word) (w : Nat) : Bool :=
  decide (srcBase ≤ off.toNat) && decide (off.toNat + w - 1 < srcBase + p.srcDepth)

/-- `inDst(off, w)` (R209). -/
def inDst (p : Config.Params) (off : Word) (w : Nat) : Bool :=
  decide (dstBase ≤ off.toNat) && decide (off.toNat + w - 1 < dstBase + p.dstDepth)

/-- The position in SRC of an offset inside it. -/
def srcPos (off : Word) : Nat := off.toNat - srcBase

/-- The position in DST of an offset inside it. -/
def dstPos (off : Word) : Nat := off.toNat - dstBase

/-- `off mod 4 = 0` (R66). -/
def aligned (off : Word) : Bool := off.toNat % 4 == 0

/-! ### Byte lanes (R63) -/

/-- `le32` (R209): the byte at the lowest offset sits in bits 7:0. -/
def le32 (x0 x1 x2 x3 : Byte) : Word := x3 ++ x2 ++ x1 ++ x0

/-- `data[8k+7:8k]`, the byte that goes to the k-th offset of a word (R63). -/
def byteLane (data : Word) (k : Nat) : Byte := data.extractLsb' (8 * k) 8

/-- The four bytes of a word in rising offsets. -/
def byteLanes (data : Word) : List Byte := [byteLane data 0, byteLane data 1, byteLane data 2, byteLane data 3]

/-- `zext_32` of a byte (R97). -/
def zextByte (b : Byte) : Word := b.setWidth 32

/-- The alphabet that ALPH_L selects (R196). -/
def alphabetOfLatch (alphL : Bool) : Alphabet := if alphL then .url else .std

end Sys2Proof.Machine
end

