-- ==== Sys2Proof/Machine/Flags.lean ====
section
/-! DEFINITION. The STATUS word (R24) and every event that writes a flag (the table of R43). -/

namespace Sys2Proof.Machine

/-- STATUS as an R32 reads it: BUSY 0, DONE 1, ERR 2, OVR 3, ERRCODE 11:8, every other bit 0 (R24, R30). -/
def BlockState.statusWord (b : BlockState) : Word :=
  (0 : BitVec 20) ++ b.errcode ++ (0 : BitVec 4) ++ BitVec.ofBool b.ovr ++ BitVec.ofBool b.err ++ BitVec.ofBool b.done
    ++ BitVec.ofBool b.busy

/-- The code in STATUS.ERRCODE (R240). -/
def ErrCode.code : ErrCode → BitVec 4
  | .badCmd => 1
  | .lenRange => 2
  | .badLength => 3
  | .badChar => 4
  | .badPad => 5
  | .dstOverflow => 6

/-- An ignored host write: OVR is set and nothing else changes (R276). -/
def BlockState.setOvr (b : BlockState) : BlockState := { b with ovr := true }

/-- The busy hazard that every permitted host write passes through: while BUSY = 1 it is ignored and sets OVR (R276). -/
def BlockState.writeUnlessBusy (f : BlockState → BlockState) (b : BlockState) : BlockState :=
  if b.busy then b.setOvr else f b

/-- `clear_status()` (R192). -/
def BlockState.clearStatus (b : BlockState) : BlockState :=
  { b with done := false, err := false, ovr := false, errcode := 0, errIdx := 0 }

/-- `accept(op, a)` (R195): `op` is false for encode and true for decode. -/
def BlockState.accept (op : Bool) (a : Alphabet) (b : BlockState) : BlockState :=
  { b with
    opL := op, alphL := decide (a = .url)
    done := false, err := false, ovr := false, errcode := 0, busy := true }

/-- `raise OpError(code, index)` (R243): THE error outcome, the block's counterpart of taking an exception. OVR, SRC, SRC_LEN
and DST are left as they were, and so are the latches: R194 says it of a reserved word, and after a completion it is the model's DESIGN
CHOICE (N5, log 27). -/
def BlockState.opError (code : ErrCode) (index : Nat) (b : BlockState) : BlockState :=
  { b with
    busy := false, done := false, err := true, errcode := code.code
    dstLen := 0, errIdx := BitVec.ofNat 32 index }

end Sys2Proof.Machine
end

