-- ==== Sys2Proof/Machine/Ops.lean ====
section
/-! DEFINITION. The named operations: buffer cells (R40), draws (R11), the successful completion's writes (R125, R126, R160, R161),
and how a host transaction is answered (R96, R108, R246, R247). -/

namespace Sys2Proof.Machine

/-! ### Buffer cells -/

/-- The cell at position `i`: its byte, or none when it is `unwritten` (R40). -/
def Memory.cell : Memory → Nat → Option Byte
  | [], _ => none
  | (a, v) :: m, i => if i = a then some v else Memory.cell m i

/-- `B[i] <- written(v)`, keeping the canonical form. -/
def Memory.write : Memory → Nat → Byte → Memory
  | [], i, v => [(i, v)]
  | (a, u) :: m, i, v =>
    if i < a then (i, v) :: (a, u) :: m
    else if i = a then (i, v) :: m
    else (a, u) :: Memory.write m i v

/-- Consecutive cells from position `i` on. -/
def Memory.writeAll (m : Memory) (i : Nat) : List Byte → Memory
  | [] => m
  | v :: vs => Memory.writeAll (m.write i v) (i + 1) vs

/-! ### Reads and draws: `d` counts the draws taken so far, and each operation answers the new count (R11, R40) -/

/-- `Draw8()` (R11). -/
def draw8 (d : Nat) : Byte × Nat := (Config.draw8 d, d + 1)

/-- `rd(B, i)` (R209): the cell's value, or a fresh draw if it is unwritten. The cell stays as it is (R40). -/
def rd (m : Memory) (i d : Nat) : Byte × Nat :=
  match m.cell i with
  | some v => (v, d)
  | none => draw8 d

/-- `rdDst(i)` (R209): a draw while BUSY = 1 (R277). -/
def rdDst (b : BlockState) (i d : Nat) : Byte × Nat :=
  if b.busy then draw8 d else rd b.dst i d

/-- Four byte reads joined by `le32`, taken in rising positions (R63, log 21). -/
def read4 (byte : Nat → Nat → Byte × Nat) (i d : Nat) : Word × Nat :=
  let (x0, d0) := byte i d
  let (x1, d1) := byte (i + 1) d0
  let (x2, d2) := byte (i + 2) d1
  let (x3, d3) := byte (i + 3) d2
  (le32 x0 x1 x2 x3, d3)

/-- `Draw32()` (R209). -/
def draw32 (d : Nat) : Word × Nat := read4 (fun _ e => draw8 e) 0 d

/-- `[rd(B, i), .., rd(B, i+n-1)]`, each unwritten cell drawn once (R131, R167). -/
def rdRange (m : Memory) (i : Nat) : Nat → Nat → List Byte × Nat
  | 0, d => ([], d)
  | n + 1, d =>
    let (v, d1) := rd m i d
    let (vs, d2) := rdRange m (i + 1) n d1
    (v :: vs, d2)

/-! ### The successful completion of a data command -/

/-- `DST[0..m) <- out`, `DST_LEN <- m`, `ERR_INDEX <- 0`, `BUSY <- 0`, `DONE <- 1`, where m is the result's length
(R125, R126, R160, R161). What OP_L and ALPH_L hold after a completion the spec leaves open (N5 of 93_implementation_defined.md: `any
value` while BUSY = 0): DESIGN CHOICE, the model keeps the last command's latches (log 27). -/
def BlockState.succeed (out : List Byte) (b : BlockState) : BlockState :=
  { b with
    dst := b.dst.writeAll 0 out
    dstLen := BitVec.ofNat 32 out.length, errIdx := 0
    busy := false, done := true }

/-! ### Answering the host -/

/-- A read answers `OK(rdata)`: the value is the last read value and the host goes to its next statement (R96, R108). -/
def HostAgent.answerRead (rdata : Word) (h : HostAgent) : HostAgent :=
  { h with lastRead := some rdata, resp := some (.okData rdata), pc := h.pc + 1 }

/-- A write answers `OK` (R96, R108). -/
def HostAgent.answerWrite (h : HostAgent) : HostAgent :=
  { h with resp := some .ok, pc := h.pc + 1 }

/-- The host's fault state, which names the statement it stands at (R108, R247). -/
def HostAgent.fault (h : HostAgent) : HostAgent := { h with status := .faulted h.pc }

/-- The answer `BUS_ERROR` faults the host (R247). -/
def HostAgent.busError (h : HostAgent) : HostAgent := { h.fault with resp := some .busError }

/-- A read that took its value `r.1`, leaving the draw counter at `r.2`. No read changes the block (R68). -/
def answerRead (r : Word × Nat) (s : State) : Result :=
  .next { s with host := s.host.answerRead r.1, draws := r.2 }

/-- A permitted write with the effect `f` on the idle block: ignored while BUSY = 1 (R276), answered `OK` either way. -/
def answerWrite (f : BlockState → BlockState) (s : State) : Result :=
  .next { s with block := s.block.writeUnlessBusy f, host := s.host.answerWrite }

/-- `raise BusError(off)` (R246): THE bus error. The block keeps its whole state and the host faults. -/
def busError (s : State) : Result := .next { s with host := s.host.busError }

end Sys2Proof.Machine
end

