-- ==== Sys2Proof/Machine/Base64.lean ====
section
/-! DEFINITION. The transformations, pure functions of an alphabet and a byte sequence: ALPHA and LOOKUP (R101, R102), ENCODE
(R120, R124), VALIDATE (R150) and DECODE (R156, R158). -/

namespace Sys2Proof.Machine

/-- `PAD`, the character `=` under both alphabets (R100). -/
def pad : Byte := 0x3D

/-- `ALPHA(a, i)`, index to character (R101). -/
def alpha (a : Alphabet) (i : Sextet) : Byte :=
  if i.toNat ≤ 25 then 0x41 + i.setWidth 8
  else if i.toNat ≤ 51 then 0x61 + (i.setWidth 8 - 26)
  else if i.toNat ≤ 61 then 0x30 + (i.setWidth 8 - 52)
  else if i.toNat = 62 then (match a with | .std => 0x2B | .url => 0x2D)
  else (match a with | .std => 0x2F | .url => 0x5F)

/-- What LOOKUP answers (R102). -/
inductive Lookup where
  | idx (i : Sextet)
  | padc
  | invalid
  deriving DecidableEq, Repr

/-- `LOOKUP(a, c)`, character to index, total on every byte (R102). -/
def lookup (a : Alphabet) (c : Byte) : Lookup :=
  if 0x41 ≤ c ∧ c ≤ 0x5A then .idx ((c - 0x41).setWidth 6)
  else if 0x61 ≤ c ∧ c ≤ 0x7A then .idx ((c - 0x61 + 26).setWidth 6)
  else if 0x30 ≤ c ∧ c ≤ 0x39 then .idx ((c - 0x30 + 52).setWidth 6)
  else if a = .std ∧ c = 0x2B then .idx 62
  else if a = .std ∧ c = 0x2F then .idx 63
  else if a = .url ∧ c = 0x2D then .idx 62
  else if a = .url ∧ c = 0x5F then .idx 63
  else if c = 0x3D then .padc
  else .invalid

/-! ### The 24-bit accumulator (R105, R106) -/

/-- `acc = b0 ++ b1 ++ b2` (R106). -/
def packBytes (b0 b1 b2 : Byte) : Acc := b0 ++ b1 ++ b2

/-- `acc = i0 ++ i1 ++ i2 ++ i3` (R105). -/
def packIndices (i0 i1 i2 i3 : Sextet) : Acc := i0 ++ i1 ++ i2 ++ i3

/-- `[acc[23:16], acc[15:8], acc[7:0]]` (R106). -/
def accBytes (acc : Acc) : List Byte := [acc.extractLsb' 16 8, acc.extractLsb' 8 8, acc.extractLsb' 0 8]

/-! ### Encode -/

/-- `ENCODE_GROUP(a, b0, b1, b2, k)` (R124): `k` is how many of the bytes are present. -/
def encodeGroup (a : Alphabet) (b0 b1 b2 : Byte) (k : Nat) : List Byte :=
  let acc := packBytes b0 b1 b2
  let c0 := alpha a (acc.extractLsb' 18 6)
  let c1 := alpha a (acc.extractLsb' 12 6)
  let c2 := alpha a (acc.extractLsb' 6 6)
  let c3 := alpha a (acc.extractLsb' 0 6)
  [c0, c1, if k = 1 then pad else c2, if k = 1 ∨ k = 2 then pad else c3]

/-- `ENCODE(a, d)` (R120): groups of three in increasing order, the missing bytes of the last group zero. -/
def encodeText (a : Alphabet) : List Byte → List Byte
  | [] => []
  | [b0] => encodeGroup a b0 0 0 1
  | [b0, b1] => encodeGroup a b0 b1 0 2
  | b0 :: b1 :: b2 :: rest => encodeGroup a b0 b1 b2 3 ++ encodeText a rest

/-- `((n + 2) // 3) * 4`, the length of the result (R127). -/
def encodedLength (n : Nat) : Nat := ((n + 2) / 3) * 4

/-! ### Validate -/

/-- What VALIDATE answers (R150). -/
inductive Verdict where
  | ok (p : Nat)
  | fail (code : ErrCode) (index : Nat)
  deriving DecidableEq, Repr

/-- `q`: the length of the longest suffix of `=` only (R152). -/
def trailingPads (t : List Byte) : Nat := (t.reverse.takeWhile (fun c => c == pad)).length

/-- The character scan (R153) from position `i` on: `n` is the whole text's length and `p` its accepted padding. -/
def scan (a : Alphabet) (n p : Nat) : Nat → List Byte → Verdict
  | _, [] => .ok p
  | i, c :: cs =>
    if lookup a c = .invalid then .fail .badChar i
    else if c = pad ∧ i < n - p then .fail .badPad i
    else scan a n p (i + 1) cs

/-- `VALIDATE(a, t)` (R150). -/
def validate (a : Alphabet) (t : List Byte) : Verdict :=
  if t.length % 4 ≠ 0 then .fail .badLength 0
  else scan a t.length (min (trailingPads t) 2) 0 t

/-! ### Decode -/

/-- The index a character stands for in DECODE_GROUP (R158): `=` maps to 0. INVALID cannot occur there; it is given 0 too, a
value nothing reads (log 14). -/
def sextet (a : Alphabet) (c : Byte) : Sextet :=
  match lookup a c with
  | .idx i => i
  | .padc => 0
  | .invalid => 0

/-- `DECODE_GROUP(a, c0, c1, c2, c3)` (R158). -/
def decodeGroup (a : Alphabet) (c0 c1 c2 c3 : Byte) : List Byte :=
  accBytes (packIndices (sextet a c0) (sextet a c1) (sextet a c2) (sextet a c3))

/-- The groups of a text in increasing order, untrimmed (R157). A text that passed VALIDATE has whole groups only. -/
def decodeGroups (a : Alphabet) : List Byte → List Byte
  | c0 :: c1 :: c2 :: c3 :: rest => decodeGroup a c0 c1 c2 c3 ++ decodeGroups a rest
  | _ => []

/-- `drop_last(s, k)` (R12). -/
def dropLast (s : List Byte) (k : Nat) : List Byte := s.take (s.length - k)

/-- `DECODE(a, t)` of a text whose padding count is `p`: the whole output is trimmed, not each group (R156). -/
def decodeText (a : Alphabet) (t : List Byte) (p : Nat) : List Byte := dropLast (decodeGroups a t) p

/-- `(n / 4) * 3 - p`, the length of the result (R159). -/
def decodedLength (n p : Nat) : Nat := (n / 4) * 3 - p

end Sys2Proof.Machine
end

