-- ==== Sys2Proof/Machine/DecodeFamily.lean ====
section
/-! DEFINITION. The decode commands DEC_STD and DEC_URL: their acceptance (R162, R163) and their completion (R167). -/

namespace Sys2Proof.Machine

/-- `complete_decode(a)` (R167) on the block `b`, with `d` draws taken before it. VALIDATE and DECODE see the same bytes. -/
def completeDecode (p : Config.Params) (a : Alphabet) (b : BlockState) (d : Nat) : BlockState × Nat :=
  let n := b.srcLen.toNat
  if n > p.srcDepth then (b.opError .lenRange 0, d)
  else
    let (text, d') := rdRange b.src 0 n d
    match validate a text with
    | .fail code i => (b.opError code i, d')
    | .ok k =>
      if decodedLength n k > p.dstDepth then (b.opError .dstOverflow 0, d')
      else (b.succeed (decodeText a text k), d')

/-- DEC_STD (R162): acceptance with OP_L <- 1, ALPH_L <- 0; ignored while busy. -/
def execDecStd (s : State) : Result := answerWrite (BlockState.accept true .std) s

/-- DEC_URL (R163): acceptance with OP_L <- 1, ALPH_L <- 1; ignored while busy. -/
def execDecUrl (s : State) : Result := answerWrite (BlockState.accept true .url) s

end Sys2Proof.Machine
end

