-- ==== Sys2Proof/Machine/EncodeFamily.lean ====
section
/-! DEFINITION. The encode commands ENC_STD and ENC_URL: their acceptance (R122, R123) and their completion (R131). -/

namespace Sys2Proof.Machine

/-- `complete_encode(a)` (R131) on the block `b`, with `d` draws taken before it. -/
def completeEncode (p : Config.Params) (a : Alphabet) (b : BlockState) (d : Nat) : BlockState × Nat :=
  let n := b.srcLen.toNat
  if n > p.srcDepth then (b.opError .lenRange 0, d)
  else if encodedLength n > p.dstDepth then (b.opError .dstOverflow 0, d)
  else
    let (data, d') := rdRange b.src 0 n d
    (b.succeed (encodeText a data), d')

/-- ENC_STD (R122): acceptance with OP_L <- 0, ALPH_L <- 0; ignored while busy. -/
def execEncStd (s : State) : Result := answerWrite (BlockState.accept false .std) s

/-- ENC_URL (R123): acceptance with OP_L <- 0, ALPH_L <- 1; ignored while busy. -/
def execEncUrl (s : State) : Result := answerWrite (BlockState.accept false .url) s

end Sys2Proof.Machine
end

