-- ==== Sys2Proof/Machine/Completion.lean ====
section
/-! DEFINITION. The block agent's one step (R196) and the reset event (R270). -/

namespace Sys2Proof.Machine

/-- `block_step()` (R196) on the block alone: what the latches select, and the draws it takes. -/
def completeCommand (p : Config.Params) (b : BlockState) (d : Nat) : BlockState × Nat :=
  if b.opL then completeDecode p (alphabetOfLatch b.alphL) b d
  else completeEncode p (alphabetOfLatch b.alphL) b d

/-- The block's completion step on the machine. Enabled iff BUSY = 1: `State.mover` asks for it then only. -/
def blockStep (s : State) : State :=
  let r := completeCommand s.params s.block s.draws
  { s with block := r.1, draws := r.2 }

/-- The reset event (R270): the block takes its reset values whatever BUSY is. The parameters stay (R35, R36), and so do the
host agent, which is no block state (R45), and the draw counter, so that no draw is taken twice (log 15). -/
def resetEvent (s : State) : State := { s with block := .reset }

end Sys2Proof.Machine
end

