-- ==== Sys2Proof/WellFormed.lean ====
section
/-! DEFINITION. The checks a term must pass: the parameters' ranges (R7) and a host program's branch targets (R214).
An instruction needs none: its operands are 32-bit values "used unchanged" and every value of each is admissible (R96, R97). -/

namespace Sys2Proof

/-- 1 <= SRC_DEPTH <= 65536 and 1 <= DST_DEPTH <= 65536 (R7). -/
abbrev Config.Params.Wf (p : Config.Params) : Prop :=
  1 ≤ p.srcDepth ∧ p.srcDepth ≤ 65536 ∧ 1 ≤ p.dstDepth ∧ p.dstDepth ≤ 65536

/-- A branch's label names a statement of the program of `n` statements (R214). -/
def Stmt.wf (n : Nat) : Stmt → Bool
  | .txn _ => true
  | .bnz _ target => decide (target < n)
  | .bz _ target => decide (target < n)
  | .halt => true

/-- Every label of the program names a statement: "A label that names no statement makes the program ill-formed" (R214). -/
def programWf (prog : List Stmt) : Bool := prog.all (Stmt.wf prog.length)

end Sys2Proof
end

