-- ==== Sys2Proof/Decode.lean ====
section
/-! DEFINITION. Decoding (R90 to R96): total on every command word and every transaction record, rejecting by name; and the
encoder, written from the same tables. -/

namespace Sys2Proof

/-- Why a command word is no command (R94). -/
inductive DecodeReject where
  /-- `word[31:3] != 0` -/
  | rsvdNotZero
  /-- the word 0x00000004 -/
  | nopWithUrl
  /-- the word 0x00000007 -/
  | clrstatWithUrl
  deriving DecidableEq, Repr

/-- An instruction in its encoded form: a word of format CMD (R90) or a record of format HOSTTXN (R96). -/
inductive InstrWord where
  | cmd (w : Word)
  | txn (t : HostTxn)
  deriving DecidableEq, Repr

/-- `OP`, bits 1:0 (R90). -/
def cmdOp (w : Word) : BitVec 2 := w.extractLsb' 0 2

/-- `URL`, bit 2 (R90). -/
def cmdUrl (w : Word) : BitVec 1 := w.extractLsb' 2 1

/-- `RSVD`, bits 31:3 (R90). -/
def cmdRsvd (w : Word) : BitVec 29 := w.extractLsb' 3 29

/-- The alphabet an URL field selects (R92). -/
def alphabetOfUrl (u : BitVec 1) : Alphabet := if u = 0 then .std else .url

/-- `decode_cmd` (R95), total on every 32-bit word. -/
def decodeCmd (w : Word) : Except DecodeReject Command :=
  if cmdRsvd w ≠ 0 then .error .rsvdNotZero
  else if cmdOp w = 0b00 then (if cmdUrl w = 0 then .ok .nop else .error .nopWithUrl)
  else if cmdOp w = 0b01 then .ok (.enc (alphabetOfUrl (cmdUrl w)))
  else if cmdOp w = 0b10 then .ok (.dec (alphabetOfUrl (cmdUrl w)))
  else (if cmdUrl w = 0 then .ok .clrstat else .error .clrstatWithUrl)

/-- The table's row of a command (R93). -/
def Command.instr : Command → Instr
  | .nop => .nop
  | .clrstat => .clrstat
  | .enc .std => .encStd
  | .enc .url => .encUrl
  | .dec .std => .decStd
  | .dec .url => .decUrl

/-- A transaction record's instruction (R96): KIND selects it, OFF and DATA are its operands, DATA is ignored by a read. -/
def decodeTxn (t : HostTxn) : Instr :=
  if t.kind = 0b00 then .r8 t.off
  else if t.kind = 0b01 then .r32 t.off
  else if t.kind = 0b10 then .w8 t.off t.data
  else .w32 t.off t.data

/-- The decoder of both formats. -/
def decode : InstrWord → Except DecodeReject Instr
  | .cmd w => (decodeCmd w).map Command.instr
  | .txn t => .ok (decodeTxn t)

/-- The encoder: the words of R93 and the KINDs of R96. The DATA a read ignores is written as 0 (log 8). -/
def encode : Instr → InstrWord
  | .nop => .cmd 0x00000000
  | .encStd => .cmd 0x00000001
  | .decStd => .cmd 0x00000002
  | .clrstat => .cmd 0x00000003
  | .encUrl => .cmd 0x00000005
  | .decUrl => .cmd 0x00000006
  | .r8 off => .txn ⟨0b00, off, 0⟩
  | .r32 off => .txn ⟨0b01, off, 0⟩
  | .w8 off data => .txn ⟨0b10, off, data⟩
  | .w32 off data => .txn ⟨0b11, off, data⟩

/-- A record's bits: KIND in bits 1:0 as the table numbers it, then OFF in 33:2 and DATA in 65:34 (log 8). -/
def HostTxn.bits (t : HostTxn) : BitVec 66 := t.data ++ t.off ++ t.kind

/-- The record of 66 bits. -/
def HostTxn.ofBits (v : BitVec 66) : HostTxn :=
  ⟨v.extractLsb' 0 2, v.extractLsb' 2 32, v.extractLsb' 34 32⟩

/-- The encoded instruction whose first `nbits` bits are `w` and whose later bits are 0. The table's CMD rows have 32 bits and
its HOSTTXN rows fewer (KIND alone), which tells the two formats apart (log 8). -/
def InstrWord.ofTable (nbits w : Nat) : InstrWord :=
  if nbits = 32 then .cmd (BitVec.ofNat 32 w) else .txn (.ofBits (BitVec.ofNat 66 (w % 2 ^ nbits)))

/-- An encoded instruction as a number of bits and those bits, numbered as the table numbers them. -/
def InstrWord.toTable : InstrWord → Nat × Nat
  | .cmd w => (32, w.toNat)
  | .txn t => (66, t.bits.toNat)

/-- The instruction the decoder reads from an instruction whose bits are `w`, numbered as opcode_table.json numbers them. -/
def decodeTableWord (nbits w : Nat) : Option Instr := (decode (.ofTable nbits w)).toOption

end Sys2Proof
end

