-- ==== Sys2Proof/Machine/Control.lean ====
section
/-! DEFINITION. The control commands NOP and CLRSTAT (R190, R192), the reserved words (R194) and the dispatch of a W32 to CMD
(R198). -/

namespace Sys2Proof.Machine

/-- NOP (R190): `skip`; ignored while busy. -/
def execNop (s : State) : Result := answerWrite (fun b => b) s

/-- CLRSTAT (R192): `clear_status()`; ignored while busy. -/
def execClrstat (s : State) : Result := answerWrite BlockState.clearStatus s

/-- A reserved command word (R194): the error outcome BAD_CMD with index 0; ignored while busy. The write answers OK (R198). -/
def reservedWord (s : State) : Result := answerWrite (BlockState.opError .badCmd 0) s

/-- `cmd_write(w)` (R198): a word that decodes to a command has that command's own meaning, and any other is reserved. -/
def cmdWrite (w : Word) (s : State) : Result :=
  match decodeCmd w with
  | .ok .nop => execNop s
  | .ok .clrstat => execClrstat s
  | .ok (.enc .std) => execEncStd s
  | .ok (.enc .url) => execEncUrl s
  | .ok (.dec .std) => execDecStd s
  | .ok (.dec .url) => execDecUrl s
  | .error _ => reservedWord s

end Sys2Proof.Machine
end

