-- ==== Sys2Proof/Machine/HostAccess.lean ====
section
/-! DEFINITION. The host transactions R8, W8, R32 and W32 (R210 to R213) over `MemRead` (R11). -/

namespace Sys2Proof.Machine

/-- `MemRead(off, 1)` (R11, R210): the byte and the new draw count, or none for BUS_ERROR. -/
def memRead8 (off : Word) (s : State) : Option (Byte × Nat) :=
  if inSrc s.params off 1 then some (rd s.block.src (srcPos off) s.draws)
  else if inDst s.params off 1 then some (rdDst s.block (dstPos off) s.draws)
  else none

/-- `MemRead(off, 4)` at an aligned offset (R11, R212). -/
def memRead32 (off : Word) (s : State) : Option (Word × Nat) :=
  if off = offStatus then some (s.block.statusWord, s.draws)
  else if off = offSrcLen then some (s.block.srcLen, s.draws)
  else if off = offDstLen then some (if s.block.busy then draw32 s.draws else (s.block.dstLen, s.draws))
  else if off = offErrIndex then some (if s.block.busy then draw32 s.draws else (s.block.errIdx, s.draws))
  else if off = offSrcCap then some (BitVec.ofNat 32 s.params.srcDepth, s.draws)
  else if off = offDstCap then some (BitVec.ofNat 32 s.params.dstDepth, s.draws)
  else if inSrc s.params off 4 then some (read4 (rd s.block.src) (srcPos off) s.draws)
  else if inDst s.params off 4 then some (read4 (rdDst s.block) (dstPos off) s.draws)
  else none

/-- R8 (R210). -/
def execR8 (off : Word) (s : State) : Result :=
  match memRead8 off s with
  | some r => answerRead (zextByte r.1, r.2) s
  | none => busError s

/-- R32 (R212). The alignment is checked first (R65, R66). -/
def execR32 (off : Word) (s : State) : Result :=
  if aligned off then
    match memRead32 off s with
    | some r => answerRead r s
    | none => busError s
  else busError s

/-- `SRC[i] <- written(v)` for consecutive positions from `i`. -/
def BlockState.writeSrc (i : Nat) (bytes : List Byte) (b : BlockState) : BlockState :=
  { b with src := b.src.writeAll i bytes }

/-- `SRC_LEN <- v`, any 32-bit value (R32). -/
def BlockState.setSrcLen (v : Word) (b : BlockState) : BlockState := { b with srcLen := v }

/-- W8 (R211): the bus error is checked before BUSY, and `DATA[7:0]` is written. -/
def execW8 (off data : Word) (s : State) : Result :=
  if inSrc s.params off 1 then answerWrite (BlockState.writeSrc (srcPos off) [byteLane data 0]) s
  else busError s

/-- W32 (R213): CMD, SRC_LEN or a whole word of SRC; every other offset is a bus error, checked before BUSY. -/
def execW32 (off data : Word) (s : State) : Result :=
  if aligned off then
    if off = offCmd then cmdWrite data s
    else if off = offSrcLen then answerWrite (BlockState.setSrcLen data) s
    else if inSrc s.params off 4 then answerWrite (BlockState.writeSrc (srcPos off) (byteLanes data)) s
    else busError s
  else busError s

end Sys2Proof.Machine
end

