-- ==== Sys2Proof/Machine/Dispatch.lean ====
section
/-! DEFINITION. One arm per instruction. -/

namespace Sys2Proof.Machine

def exec (i : Instr) (s : State) : Host.Outcome State Fault Refusal :=
  match i with
  | .nop => Sys2Proof.Machine.execNop s
  | .encStd => Sys2Proof.Machine.execEncStd s
  | .decStd => Sys2Proof.Machine.execDecStd s
  | .clrstat => Sys2Proof.Machine.execClrstat s
  | .encUrl => Sys2Proof.Machine.execEncUrl s
  | .decUrl => Sys2Proof.Machine.execDecUrl s
  | .r8 off => Sys2Proof.Machine.execR8 off s
  | .r32 off => Sys2Proof.Machine.execR32 off s
  | .w8 off data => Sys2Proof.Machine.execW8 off data s
  | .w32 off data => Sys2Proof.Machine.execW32 off data s

end Sys2Proof.Machine
end

