-- ==== Sys2Proof/Machine/HostControl.lean ====
section
/-! DEFINITION. The host agent's control flow (R108, R214), the fetch of its next statement, the schedule (R249), and how an
instruction is placed where the host issues its next statement. -/

namespace Sys2Proof.Machine

/-! ### Statements that produce no transaction -/

/-- A conditional branch whose test of the last read value is `taken`; before any read it faults the host (R108). -/
def HostAgent.branch (taken : Word → Bool) (target : Nat) (h : HostAgent) : HostAgent :=
  match h.lastRead with
  | none => h.fault
  | some v => { h with pc := if taken v then target else h.pc + 1 }

/-- `BNZ mask, L` (R214). -/
def HostAgent.bnz (mask : Word) (target : Nat) (h : HostAgent) : HostAgent :=
  h.branch (fun v => decide (v &&& mask ≠ 0)) target

/-- `BZ mask, L` (R214). -/
def HostAgent.bz (mask : Word) (target : Nat) (h : HostAgent) : HostAgent :=
  h.branch (fun v => decide (v &&& mask = 0)) target

/-- `HALT` (R214): "stops the host in its final state". -/
def HostAgent.halt (h : HostAgent) : HostAgent := { h with status := .halted }

/-! ### Fetch -/

/-- The statement at the host's pc. A host past its last statement "stops as if at HALT" (R214). -/
def HostAgent.fetch (h : HostAgent) : Stmt := h.program[h.pc]?.getD .halt

/-! ### The schedule (log 1, log 2) -/

/-- Who moves next. A turn given to an agent that has no step goes to the other one. With no turn left the block completes as
soon as it can, which is one of the schedules R82 admits. -/
def State.mover (s : State) : Turn :=
  match s.turns with
  | .reset :: _ => .reset
  | .host :: _ => if s.host.status ≠ .running ∧ s.block.busy then .block else .host
  | .block :: _ => if s.block.busy then .block else .host
  | [] => if s.block.busy then .block else .host

/-- The turn is used up. -/
def State.takeTurn (s : State) : State := { s with turns := s.turns.tail }

/-! ### Placing an instruction (log 9, log 10) -/

/-- The transaction that delivers an encoded instruction: a command word is delivered by a W32 to CMD (R90, R93). -/
def deliver : InstrWord → HostTxn
  | .cmd w => ⟨0b11, offCmd, w⟩
  | .txn t => t

/-- The program with `st` as its statement number `i`, padded with HALT up to it. -/
def setStmt (st : Stmt) : Nat → List Stmt → List Stmt
  | 0, [] => [st]
  | 0, _ :: rest => st :: rest
  | i + 1, [] => .halt :: setStmt st i []
  | i + 1, x :: rest => x :: setStmt st i rest

/-- The host about to issue `t`: it stands in the program at the pc, and the host is running. An ill-formed program, which no
step runs (R214), is replaced. -/
def HostAgent.withNext (t : HostTxn) (h : HostAgent) : HostAgent :=
  { h with
    program := setStmt (.txn t) h.pc (if programWf h.program then h.program else [])
    status := .running }

/-- The machine about to let the host issue `t`: the next turn is the host's. -/
def State.withNext (t : HostTxn) (s : State) : State :=
  { s with host := s.host.withNext t, turns := .host :: s.turns }

end Sys2Proof.Machine
end

