-- ==== Sys2Proof/Machine/HostStep.lean ====
section
/-! DEFINITION. A step of the host agent (R108, R214), and the step of whichever agent moves (R20, R249). -/

namespace Sys2Proof.Machine

/-- The host's step: the statement at its pc. A transaction is decoded and executed; the other statements are the host's own
(R108, R214). A halted host stays in its final state; a faulted one has no step (R247, log 11). -/
def hostStep (s : State) : Result :=
  match s.host.status with
  | .faulted stmt => .fault (.hostFaulted stmt)
  | .halted => .next s
  | .running =>
    match s.host.fetch with
    | .txn t => exec (decodeTxn t) s
    | .bnz mask target => .next { s with host := s.host.bnz mask target }
    | .bz mask target => .next { s with host := s.host.bz mask target }
    | .halt => .next { s with host := s.host.halt }

/-- One step of the agent whose turn it is: agents' steps interleave and never overlap (R67). -/
def moveAgent (s : State) : Result :=
  match s.mover with
  | .reset => .next (resetEvent s.takeTurn)
  | .block => .next (blockStep s.takeTurn)
  | .host => hostStep s.takeTurn

end Sys2Proof.Machine
end

