-- ==== Sys2Proof/Machine/Step.lean ====
section
/-! DEFINITION. One step of the machine, and the placing of an instruction for it. -/

namespace Sys2Proof.Machine

/-- One step: one agent moves. An ill-formed host program is refused (R214, log 13). -/
def step (s : State) : Host.Outcome State Fault Refusal :=
  if programWf s.host.program then moveAgent s else .refused .illFormedProgram

/-- The encoded instruction of the table's numbering, placed where the host issues its next statement (log 9, log 10). -/
def State.withFetchWord (s : State) (nbits w : Nat) : State := s.withNext (deliver (.ofTable nbits w))

end Sys2Proof.Machine
end

