-- ==== Sys2Proof/Machine/Assemble.lean ====
section
/-! DEFINITION. Host programs as they are written: labels, pseudo-instructions and their expansion (R108, R109), and loading one
into the host agent. -/

namespace Sys2Proof.Machine

/-- Why a written program is ill-formed and refused (R214, V8). -/
inductive AsmReject where
  /-- a branch uses a name that no label line defines -/
  | undefinedLabel (name : String)
  /-- a label line that no statement follows -/
  | labelNamesNoStatement (name : String)
  /-- a name defined twice (log 19) -/
  | duplicateLabel (name : String)
  /-- a LOAD text with a character that has no ASCII code (log 20) -/
  | notAscii (text : String)
  deriving DecidableEq, Repr

/-- The ASCII codes of a text's characters (R109, G5). -/
def asciiBytes (text : String) : List Byte := text.toList.map (fun c => BitVec.ofNat 8 c.toNat)

/-- Every character of the text has an ASCII code. -/
def isAscii (text : String) : Bool := text.toList.all (fun c => decide (c.toNat < 128))

/-- How many statements a line expands to. -/
def lineSize : SrcLine → Nat
  | .label _ => 0
  | .wait => 2
  | .load text => text.toList.length + 1
  | .loadb bytes => bytes.length + 1
  | .run _ => 3
  | .r8 _ | .r32 _ | .w8 _ _ | .w32 _ _ | .bnz _ _ | .bz _ _ | .halt => 1

/-- How many statements a program has. -/
def programSize (lines : List SrcLine) : Nat := (lines.map lineSize).sum

/-- The labels with the statement index each names, "the next statement's index" (R108), from index `k` on. -/
def labelTable (k : Nat) : List SrcLine → List (String × Nat)
  | [] => []
  | .label name :: rest => (name, k) :: labelTable k rest
  | line :: rest => labelTable (k + lineSize line) rest

def stmtR8 (off : Word) : Stmt := .txn ⟨0b00, off, 0⟩
def stmtR32 (off : Word) : Stmt := .txn ⟨0b01, off, 0⟩
def stmtW8 (off : Word) (data : Byte) : Stmt := .txn ⟨0b10, off, zextByte data⟩
def stmtW32 (off data : Word) : Stmt := .txn ⟨0b11, off, data⟩

/-- `WAIT` as statement number `k`: `L: R32 STATUS` / `BNZ 0x1, L` (R109). -/
def expandWait (k : Nat) : List Stmt := [stmtR32 offStatus, .bnz 0x1 k]

/-- `LOADB`: one W8 a byte from SRC+i on, then SRC_LEN (R109). -/
def expandLoad (bytes : List Byte) : List Stmt :=
  bytes.mapIdx (fun i v => stmtW8 (BitVec.ofNat 32 (srcBase + i)) v) ++ [stmtW32 offSrcLen (BitVec.ofNat 32 bytes.length)]

/-- The statement index of a label. -/
def resolve (table : List (String × Nat)) (name : String) : Except AsmReject Nat :=
  match table.lookup name with
  | some k => .ok k
  | none => .error (.undefinedLabel name)

/-- The statements of a line that stands at statement index `k`. -/
def expandLine (table : List (String × Nat)) (k : Nat) : SrcLine → Except AsmReject (List Stmt)
  | .r8 off => .ok [stmtR8 off]
  | .r32 off => .ok [stmtR32 off]
  | .w8 off data => .ok [stmtW8 off data]
  | .w32 off data => .ok [stmtW32 off data]
  | .label _ => .ok []
  | .bnz mask name => (resolve table name).map (fun target => [.bnz mask target])
  | .bz mask name => (resolve table name).map (fun target => [.bz mask target])
  | .halt => .ok [.halt]
  | .wait => .ok (expandWait k)
  | .load text => if isAscii text then .ok (expandLoad (asciiBytes text)) else .error (.notAscii text)
  | .loadb bytes => .ok (expandLoad bytes)
  | .run cmd => .ok (stmtW32 offCmd cmd :: expandWait (k + 1))

/-- The lines' statements in order, from index `k` on. -/
def expandAll (table : List (String × Nat)) (k : Nat) : List SrcLine → Except AsmReject (List Stmt)
  | [] => .ok []
  | line :: rest =>
    match expandLine table k line, expandAll table (k + lineSize line) rest with
    | .ok here, .ok later => .ok (here ++ later)
    | .error e, _ => .error e
    | .ok _, .error e => .error e

/-- What is wrong with the labels of a program of `n` statements, if anything. -/
def labelProblem (n : Nat) : List (String × Nat) → Option AsmReject
  | [] => none
  | (name, k) :: rest =>
    if n ≤ k then some (.labelNamesNoStatement name)
    else if (rest.lookup name).isSome then some (.duplicateLabel name)
    else labelProblem n rest

/-- The host program that the written lines stand for (R108, R109). -/
def assemble (lines : List SrcLine) : Except AsmReject (List Stmt) :=
  let table := labelTable 0 lines
  match labelProblem (programSize lines) table with
  | some e => .error e
  | none => expandAll table 0 lines

/-- The host with a program loaded, at its first statement: the start of every program of 95_test_vectors.md (log 10). -/
def State.loadProgram (program : List Stmt) (s : State) : State :=
  { s with host := { HostAgent.initial with program := program } }

end Sys2Proof.Machine
end

