-- ==== Sys2Proof/Safety.lean ====
section
/-! DEFINITION. What a good state is (the invariants claims are stated with) and what a safe step is. -/

namespace Sys2Proof.Machine

/-- The STATUS invariants of R31. -/
def BlockState.StatusInv (b : BlockState) : Prop :=
  (b.busy = true → b.done = false ∧ b.err = false ∧ b.errcode = 0) ∧
  (b.done = true → b.err = false) ∧
  (b.err = true ↔ 1 ≤ b.errcode.toNat ∧ b.errcode.toNat ≤ 6) ∧
  (b.err = false ↔ b.errcode = 0)

/-- Every written cell of the buffer lies below its depth (R37, R38). -/
def Memory.Within (m : Memory) (depth : Nat) : Prop := ∀ e ∈ m, e.1 < depth

/-- Both buffers are in canonical form and hold nothing beyond their depths. -/
def BlockState.BufferInv (p : Config.Params) (b : BlockState) : Prop :=
  b.src.Wf ∧ b.src.Within p.srcDepth ∧ b.dst.Wf ∧ b.dst.Within p.dstDepth

/-- DST_LEN never exceeds DST_DEPTH, and while DONE = 1 every byte of `DST[0..DST_LEN)` is written (R33, R38). -/
def BlockState.ResultInv (p : Config.Params) (b : BlockState) : Prop :=
  b.dstLen.toNat ≤ p.dstDepth ∧ (b.done = true → ∀ i, i < b.dstLen.toNat → (b.dst.cell i).isSome = true)

/-- The host's program is well formed, its pc is a statement's index or the end, and a fault names a statement of the program, the
one at the pc (R214, R247). -/
def HostAgent.Inv (h : HostAgent) : Prop :=
  programWf h.program = true ∧ h.pc ≤ h.program.length ∧
  (∀ k, h.status = .faulted k → k = h.pc ∧ k < h.program.length)

/-- The invariant of the whole machine. -/
structure State.Inv (s : State) : Prop where
  params : s.params.Wf
  status : s.block.StatusInv
  buffers : s.block.BufferInv s.params
  result : s.block.ResultInv s.params
  host : s.host.Inv

/-- No host fault: the premise "a claim about a host program carries" (R247). -/
def State.NoHostFault (s : State) : Prop := ∀ k, s.host.status ≠ .faulted k

/-- A safe outcome: the machine goes on, with no host fault. -/
def SafeOutcome : Result → Prop
  | .next s => s.NoHostFault
  | .fault _ => False
  | .refused _ => False

end Sys2Proof.Machine
end

