-- ==== Sys2Proof/Certificates/Slice0/Obligations.lean ====
section
/-! DEFINITION. The statements for the provers, from the numbered rules of spec/. -/

/-! ### Words the statements share -/

namespace Sys2Proof.Claims

open Sys2Proof.Machine

/-- `s` after a write that answers OK and leaves the block as `b`. -/
abbrev afterWrite (s : State) (b : BlockState) : State :=
  { s with block := b, host := { s.host with resp := some .ok, pc := s.host.pc + 1 } }

/-- `s` after a read that answers OK(v) with `d` draws taken in all. -/
abbrev afterRead (s : State) (v : Word) (d : Nat) : State :=
  { s with host := { s.host with lastRead := some v, resp := some (.okData v), pc := s.host.pc + 1 }, draws := d }

/-- `s` after a transaction that answers BUS_ERROR: the host is in its fault state and nothing else changed. -/
abbrev afterBusError (s : State) : State :=
  { s with host := { s.host with status := .faulted s.host.pc, resp := some .busError } }

/-- The error outcome with a code and an index (R243). -/
abbrev errorBlock (b : BlockState) (code : BitVec 4) (index : Nat) : BlockState :=
  { b with busy := false, done := false, err := true, errcode := code, dstLen := 0, errIdx := BitVec.ofNat 32 index }

/-- `w` bytes from `off` lie wholly in SRC: byte `i` of SRC sits at offset 0x10000 + i (R37). -/
abbrev InSrc (p : Config.Params) (off : Word) (w : Nat) : Prop :=
  0x10000 ≤ off.toNat ∧ off.toNat + w ≤ 0x10000 + p.srcDepth

/-- `w` bytes from `off` lie wholly in DST (R38). -/
abbrev InDst (p : Config.Params) (off : Word) (w : Nat) : Prop :=
  0x20000 ≤ off.toNat ∧ off.toNat + w ≤ 0x20000 + p.dstDepth

/-- The transactions the table of R62 permits. -/
def Permitted (p : Config.Params) : Instr → Prop
  | .r8 off => InSrc p off 1 ∨ InDst p off 1
  | .w8 off _ => InSrc p off 1
  | .r32 off =>
    (off = 0x4 ∨ off = 0x8 ∨ off = 0xC ∨ off = 0x10 ∨ off = 0x14 ∨ off = 0x18) ∨
      (off.toNat % 4 = 0 ∧ (InSrc p off 4 ∨ InDst p off 4))
  | .w32 off _ => off = 0x0 ∨ off = 0x8 ∨ (off.toNat % 4 = 0 ∧ InSrc p off 4)
  | .nop | .encStd | .decStd | .clrstat | .encUrl | .decUrl => True

/-- The host's writes: a W8, a W32, or a command, which a W32 delivers. -/
def IsWrite : Instr → Prop
  | .r8 _ | .r32 _ => False
  | .nop | .encStd | .decStd | .clrstat | .encUrl | .decUrl | .w8 _ _ | .w32 _ _ => True

/-- A read of `n` cells of `m` from position `i` on that takes the draws number `d` up to `d'` and gives `byte k` for its k-th cell:
a written cell's own value, and for each unwritten cell a draw of its own (R40). With every cell written no draw is taken. -/
def ReadsAs (m : Memory) (i n d d' : Nat) (byte : Nat → Byte) : Prop :=
  d ≤ d' ∧ ((∀ k, k < n → m.cell (i + k) ≠ none) → d' = d) ∧
  (∀ k, k < n → ∀ x, m.cell (i + k) = some x → byte k = x) ∧
  ∃ e : Nat → Nat,
    (∀ k, k < n → m.cell (i + k) = none → d ≤ e k ∧ e k < d' ∧ byte k = Config.draw8 (e k)) ∧
    (∀ k l, k < n → l < n → m.cell (i + k) = none → m.cell (i + l) = none → e k = e l → k = l)

/-- `b` is `b'` but for the latches. -/
abbrev SameButLatches (b b' : BlockState) : Prop := { b with opL := b'.opL, alphL := b'.alphL } = b'

/-- In this step the running command ends and leaves the block as `b`, with `d` draws taken in all. The latches are left open (N5). -/
def EndsIn (s : State) (b : BlockState) (d : Nat) : Prop :=
  ∃ b', step s = .next { s with block := b', turns := s.turns.tail, draws := d } ∧ SameButLatches b' b

/-- `d` is what a completion of this step reads from the first `n` cells of SRC, with `k` draws taken in all after it. -/
def SrcReadAs (s : State) (n : Nat) (d : List Byte) (k : Nat) : Prop :=
  d.length = n ∧ ReadsAs s.block.src 0 n s.draws k (fun i => d.getD i 0)

/-- The first `d.length` cells of the buffer are written with the bytes of `d`. -/
abbrev Holds (m : Memory) (d : List Byte) : Prop := ∀ i, i < d.length → m.cell i = d[i]?

/-- In this step the host issues the transaction that decodes to `i`. -/
def Issues (s : State) (i : Instr) : Prop :=
  s.mover = .host ∧ s.host.status = .running ∧ ∃ x, s.host.fetch = .txn x ∧ decodeTxn x = i

/-- The words of the four data commands (R93). -/
abbrev dataWords : List Word := [0x1, 0x2, 0x5, 0x6]

/-- The symbols of an alphabet in the order of R100. -/
def symbols : Alphabet → String
  | .std => "ABCDEFGHIJKLMNOPQRSTUVWXYZabcdefghijklmnopqrstuvwxyz0123456789+/"
  | .url => "ABCDEFGHIJKLMNOPQRSTUVWXYZabcdefghijklmnopqrstuvwxyz0123456789-_"

/-- `SRC[off]` and `DST[off]` cells that a read of `w` bytes at `off` touches are all written, and no output is read while busy:
none of the exceptions of R68 applies. -/
def ReadsExactly (s : State) (off : Word) (w : Nat) : Prop :=
  (InSrc s.params off w → ∀ k, k < w → s.block.src.cell (off.toNat - 0x10000 + k) ≠ none) ∧
  (InDst s.params off w → s.block.busy = false ∧ ∀ k, k < w → s.block.dst.cell (off.toNat - 0x20000 + k) ≠ none) ∧
  (off = 0xC ∨ off = 0x10 → s.block.busy = false)

end Sys2Proof.Claims

section
open Sys2Proof Sys2Proof.Machine Sys2Proof.Claims

/-! ### Encoding -/

/-- R93: the six command words, and no other word is a command. -/
def Obligations.CommandWordsExactlySix : Prop :=
  ∀ (w : Word) (i : Instr), decode (.cmd w) = .ok i ↔
    (i = .nop ∧ w = 0x00000000) ∨ (i = .encStd ∧ w = 0x00000001) ∨ (i = .decStd ∧ w = 0x00000002) ∨
    (i = .clrstat ∧ w = 0x00000003) ∨ (i = .encUrl ∧ w = 0x00000005) ∨ (i = .decUrl ∧ w = 0x00000006)

/-- R194: the reserved words, each the error outcome BAD_CMD on the idle block; on the busy block it is ignored and sets OVR.
The write answers OK either way. -/
def Obligations.ReservedWordIsBadCmd : Prop :=
  ∀ (w : Word) (s : State), (w.extractLsb' 3 29 ≠ 0 ∨ w = 0x00000004 ∨ w = 0x00000007) →
    (∃ r, decode (.cmd w) = .error r) ∧
    (s.block.busy = false →
      exec (.w32 0x0 w) s = .next (afterWrite s
        { s.block with done := false, err := true, errcode := 1, dstLen := 0, errIdx := 0 })) ∧
    (s.block.busy = true → exec (.w32 0x0 w) s = .next (afterWrite s { s.block with ovr := true }))

/-- Decode and encode agree on every instruction, with every operand at every value: the encoder's bits, numbered as the table
numbers them, decode to the instruction. The places of OFF and DATA in the record are the model's choice (log 8). -/
def Obligations.InstrEncodingRoundTrip : Prop :=
  ∀ i : Instr, decodeTableWord (encode i).toTable.1 (encode i).toTable.2 = some i

/-- Words written out from R93 and R96 and from the listings of 95_test_vectors.md §7 decode to what they stand for. -/
def Obligations.WrittenOutWordsDecode : Prop :=
  decodeTableWord 32 0b00000000000000000000000000000001 = some .encStd ∧
  decodeTableWord 32 0b00000000000000000000000000000110 = some .decUrl ∧
  decodeTableWord 32 0b00000000000000000000000000000100 = none ∧
  decode (.txn ⟨0b10, 0x10000, 0x48⟩) = .ok (.w8 0x10000 0x48) ∧
  decode (.txn ⟨0b01, 0x4, 0⟩) = .ok (.r32 0x4)

/-- R96: KIND[0] is the size and KIND[1] the direction, OFF is used unchanged, and a read ignores DATA. -/
def Obligations.TransactionKindsDecode : Prop :=
  ∀ t : HostTxn,
    (t.kind.getLsbD 1 = false → t.kind.getLsbD 0 = false → decode (.txn t) = .ok (.r8 t.off)) ∧
    (t.kind.getLsbD 1 = false → t.kind.getLsbD 0 = true → decode (.txn t) = .ok (.r32 t.off)) ∧
    (t.kind.getLsbD 1 = true → t.kind.getLsbD 0 = false → decode (.txn t) = .ok (.w8 t.off t.data)) ∧
    (t.kind.getLsbD 1 = true → t.kind.getLsbD 0 = true → decode (.txn t) = .ok (.w32 t.off t.data))

/-! ### The alphabets -/

/-- R100, R103: index `i` stands for the i-th symbol, under its ASCII code, and the two alphabets differ at indices 62 and 63 only. -/
def Obligations.AlphabetTables : Prop :=
  (∀ (a : Alphabet) (i : Sextet), ((symbols a).toList[i.toNat]?).map Char.toNat = some (alpha a i).toNat) ∧
  (∀ a, (symbols a).toList.length = 64) ∧ pad = 0x3D ∧
  (∀ i : Sextet, i.toNat ≤ 61 → alpha .std i = alpha .url i) ∧
  alpha .std 62 = 0x2B ∧ alpha .url 62 = 0x2D ∧ alpha .std 63 = 0x2F ∧ alpha .url 63 = 0x5F

/-- The decode lookup inverts the alphabet and answers INVALID for every byte outside the alphabet and `=` (after R102, which the
spec derives from R100). -/
def Obligations.LookupInvertsAlphabet : Prop :=
  ∀ a : Alphabet, (∀ i, lookup a (alpha a i) = .idx i) ∧ lookup a 0x3D = .padc ∧
    ∀ c, lookup a c = .invalid ↔ (∀ i, alpha a i ≠ c) ∧ c ≠ 0x3D

/-! ### Encode -/

/-- R127: the length law of ENCODE, and that a length fits in 32 bits. -/
def Obligations.EncodeLengthLaw : Prop :=
  ∀ (a : Alphabet) (d : List Byte),
    (encodeText a d).length = ((d.length + 2) / 3) * 4 ∧
    (encodeText a d).length = (d.length + 3 - 1) / 3 * 4 ∧
    (d.length ≤ 65536 → (encodeText a d).length ≤ 87384 ∧ (encodeText a d).length < 2 ^ 32)

/-- R128: the padding law. `=` stands only at the end, and every other character is an alphabet character. -/
def Obligations.EncodePaddingLaw : Prop :=
  ∀ (a : Alphabet) (d : List Byte), ∃ body : List Byte,
    encodeText a d = body ++ List.replicate ((3 - d.length % 3) % 3) 0x3D ∧
    (encodeText a d).count 0x3D = (3 - d.length % 3) % 3 ∧
    (∀ c ∈ body, ∃ i, c = alpha a i)

/-- R129: the alphabets' own characters never appear in the other's output. -/
def Obligations.EncodeAlphabetsDisjoint : Prop :=
  ∀ d : List Byte,
    (0x2D ∉ encodeText .std d ∧ 0x5F ∉ encodeText .std d) ∧ (0x2B ∉ encodeText .url d ∧ 0x2F ∉ encodeText .url d)

/-- The URL-safe text is the standard text with `+` and `/` replaced (after R132, which the spec derives). -/
def Obligations.EncodeUrlSwapsTwoCharacters : Prop :=
  ∀ d : List Byte,
    encodeText .url d = (encodeText .std d).map (fun c => if c = 0x2B then 0x2D else if c = 0x2F then 0x5F else c)

/-- R121, R124: output positions 4g to 4g+3 are those of group g and depend only on the input positions 3g to 3g+2. A group of one,
two or three bytes gives the four 6-bit indices of its 24-bit value, most significant first, the trailing ones replaced by `=`. -/
def Obligations.EncodeGroups : Prop :=
  ∀ a : Alphabet,
    let index (v k : Nat) : Byte := alpha a (BitVec.ofNat 6 (v / 2 ^ k))
    (∀ (d : List Byte) (g : Nat), 3 * g < d.length →
      ((encodeText a d).drop (4 * g)).take 4 = encodeText a ((d.drop (3 * g)).take 3)) ∧
    (∀ b0 b1 b2 : Byte, let v := b0.toNat * 2 ^ 16 + b1.toNat * 2 ^ 8 + b2.toNat
      encodeText a [b0, b1, b2] = [index v 18, index v 12, index v 6, index v 0]) ∧
    (∀ b0 b1 : Byte, let v := b0.toNat * 2 ^ 16 + b1.toNat * 2 ^ 8
      encodeText a [b0, b1] = [index v 18, index v 12, index v 6, 0x3D]) ∧
    (∀ b0 : Byte, let v := b0.toNat * 2 ^ 16
      encodeText a [b0] = [index v 18, index v 12, 0x3D, 0x3D])

/-! ### Decode -/

/-- R165: decoding an encoded byte sequence gives it back; the encoded text always passes VALIDATE. -/
def Obligations.DecodeInvertsEncode : Prop :=
  ∀ (a : Alphabet) (d : List Byte), ∃ p,
    validate a (encodeText a d) = .ok p ∧ decodeText a (encodeText a d) p = d

/-- R159: the length law of DECODE. -/
def Obligations.DecodeLengthLaw : Prop :=
  ∀ (a : Alphabet) (t : List Byte) (p : Nat), validate a t = .ok p →
    (decodeText a t p).length = t.length / 4 * 3 - p ∧
    (t.length = 0 → (decodeText a t p).length = 0) ∧
    (4 ≤ t.length → 1 ≤ (decodeText a t p).length)

/-- R157, R158: untrimmed output positions 3g to 3g+2 are those of group g, the text positions 4g to 4g+3. A group gives the three
bytes of the 24-bit value of its four indices, most significant first, and `=` stands for index 0. -/
def Obligations.DecodeGroups : Prop :=
  ∀ a : Alphabet,
    let bytes (v : Nat) : List Byte := [BitVec.ofNat 8 (v / 2 ^ 16), BitVec.ofNat 8 (v / 2 ^ 8), BitVec.ofNat 8 v]
    (∀ (t : List Byte) (g : Nat) (c0 c1 c2 c3 : Byte), (t.drop (4 * g)).take 4 = [c0, c1, c2, c3] →
      ((decodeGroups a t).drop (3 * g)).take 3 = decodeGroup a c0 c1 c2 c3) ∧
    (∀ (c : Fin 4 → Byte) (i : Fin 4 → Sextet), (∀ k, c k = alpha a (i k) ∨ (c k = 0x3D ∧ i k = 0)) →
      decodeGroup a (c 0) (c 1) (c 2) (c 3) =
        bytes ((i 0).toNat * 2 ^ 18 + (i 1).toNat * 2 ^ 12 + (i 2).toNat * 2 ^ 6 + (i 3).toNat))

/-- R153: the scan reports the first offending byte, by kind and position. `p` is the accepted padding count. -/
def Obligations.ValidateFirstOffender : Prop :=
  ∀ (a : Alphabet) (t : List Byte) (i : Nat), t.length % 4 = 0 →
    let p := min (trailingPads t) 2
    let offends (j : Nat) : Prop := ∃ c, t[j]? = some c ∧ (lookup a c = .invalid ∨ (c = 0x3D ∧ j < t.length - p))
    (validate a t = .fail .badChar i ↔ (∃ c, t[i]? = some c ∧ lookup a c = .invalid) ∧ ∀ j, j < i → ¬ offends j) ∧
    (validate a t = .fail .badPad i ↔ (t[i]? = some 0x3D ∧ i < t.length - p) ∧ ∀ j, j < i → ¬ offends j) ∧
    (validate a t = .ok p ↔ ∀ j, ¬ offends j)

/-- A text that passes has whole groups, alphabet characters, and at most two `=`, all at its end; so INVALID never reaches
DECODE_GROUP (after R150, R152, R158). -/
def Obligations.ValidTextShape : Prop :=
  ∀ (a : Alphabet) (t : List Byte) (p : Nat), validate a t = .ok p →
    t.length % 4 = 0 ∧ p ≤ 2 ∧ (∀ c ∈ t, lookup a c ≠ .invalid) ∧
    ∃ body : List Byte, t = body ++ List.replicate p 0x3D ∧ ∀ c ∈ body, ∃ i, c = alpha a i

/-- A text with none of `+`, `/`, `-`, `_` has the same verdict and decodes alike under both alphabets, and a character of the
other alphabet is never accepted (after R166, which the spec derives). -/
def Obligations.CrossAlphabetText : Prop :=
  (∀ t : List Byte, (∀ c ∈ t, c ≠ 0x2B ∧ c ≠ 0x2F ∧ c ≠ 0x2D ∧ c ≠ 0x5F) →
    validate .std t = validate .url t ∧ ∀ p, decodeText .std t p = decodeText .url t p) ∧
  (∀ (t : List Byte) (p : Nat), validate .url t = .ok p → 0x2B ∉ t ∧ 0x2F ∉ t) ∧
  (∀ (t : List Byte) (p : Nat), validate .std t = .ok p → 0x2D ∉ t ∧ 0x5F ∉ t)

/-- Non-canonical trailing bits are accepted and dropped: with two `=` the low 4 bits of the last group's second index, and with one
`=` the low 2 bits of its third, do not matter, whatever whole groups stand before it (after R164, which the spec derives). -/
def Obligations.DiscardedBitsIgnored : Prop :=
  ∀ (a : Alphabet) (pre : List Byte) (i0 i1 i2 j : Sextet), pre.length % 4 = 0 → (∀ c ∈ pre, ∃ i, c = alpha a i) →
    (i1.extractLsb' 4 2 = j.extractLsb' 4 2 →
      validate a (pre ++ [alpha a i0, alpha a i1, 0x3D, 0x3D]) = .ok 2 ∧
      decodeText a (pre ++ [alpha a i0, alpha a i1, 0x3D, 0x3D]) 2 =
        decodeText a (pre ++ [alpha a i0, alpha a j, 0x3D, 0x3D]) 2) ∧
    (i2.extractLsb' 2 4 = j.extractLsb' 2 4 →
      validate a (pre ++ [alpha a i0, alpha a i1, alpha a i2, 0x3D]) = .ok 1 ∧
      decodeText a (pre ++ [alpha a i0, alpha a i1, alpha a i2, 0x3D]) 1 =
        decodeText a (pre ++ [alpha a i0, alpha a i1, alpha a j, 0x3D]) 1)

/-! ### The commands on CMD -/

/-- R190: NOP on the idle block changes nothing; on the busy block it is ignored and sets OVR. Its write answers OK. -/
def Obligations.NopChangesNothing : Prop :=
  ∀ s : State,
    (s.block.busy = false → exec .nop s = .next (afterWrite s s.block)) ∧
    (s.block.busy = true → exec .nop s = .next (afterWrite s { s.block with ovr := true }))

/-- R192: CLRSTAT on the idle block clears DONE, ERR, OVR, ERRCODE and ERR_INDEX and nothing else; on the busy block it is ignored
and leaves OVR set. -/
def Obligations.ClrstatClears : Prop :=
  ∀ s : State,
    (s.block.busy = false → exec .clrstat s = .next (afterWrite s
      { s.block with done := false, err := false, ovr := false, errcode := 0, errIdx := 0 })) ∧
    (s.block.busy = true → exec .clrstat s = .next (afterWrite s { s.block with ovr := true }))

/-- R195: the acceptance of each data command on the idle block, whatever SRC_LEN and SRC hold. -/
def Obligations.DataCommandsAccepted : Prop :=
  ∀ s : State, s.block.busy = false →
    let accepted (op alph : Bool) : State := afterWrite s
      { s.block with opL := op, alphL := alph, done := false, err := false, ovr := false, errcode := 0, busy := true }
    exec .encStd s = .next (accepted false false) ∧ exec .encUrl s = .next (accepted false true) ∧
    exec .decStd s = .next (accepted true false) ∧ exec .decUrl s = .next (accepted true true)

/-- R198: a W32 to CMD performs the command of its word; while BUSY = 1 it sets OVR, whatever the word; it always answers OK. -/
def Obligations.CmdWriteDispatches : Prop :=
  ∀ (w : Word) (s : State),
    (∀ i, decode (.cmd w) = .ok i → exec (.w32 0x0 w) s = exec i s) ∧
    (s.block.busy = false → (∃ r, decode (.cmd w) = .error r) →
      exec (.w32 0x0 w) s = .next (afterWrite s (errorBlock s.block 1 0))) ∧
    (s.block.busy = true → exec (.w32 0x0 w) s = .next (afterWrite s { s.block with ovr := true })) ∧
    (∃ t, exec (.w32 0x0 w) s = .next t ∧ t.host.resp = some .ok)

/-! ### Host reads -/

/-- R210: R8 of SRC, of DST and of every other offset. -/
def Obligations.ByteReads : Prop :=
  ∀ (off : Word) (s : State), s.params.Wf →
    (InSrc s.params off 1 →
      (∀ v, s.block.src.cell (off.toNat - 0x10000) = some v →
        exec (.r8 off) s = .next (afterRead s (v.setWidth 32) s.draws)) ∧
      (s.block.src.cell (off.toNat - 0x10000) = none →
        exec (.r8 off) s = .next (afterRead s ((Config.draw8 s.draws).setWidth 32) (s.draws + 1)))) ∧
    (InDst s.params off 1 →
      (∀ v, s.block.busy = false → s.block.dst.cell (off.toNat - 0x20000) = some v →
        exec (.r8 off) s = .next (afterRead s (v.setWidth 32) s.draws)) ∧
      (s.block.busy = true ∨ s.block.dst.cell (off.toNat - 0x20000) = none →
        exec (.r8 off) s = .next (afterRead s ((Config.draw8 s.draws).setWidth 32) (s.draws + 1)))) ∧
    (¬ InSrc s.params off 1 → ¬ InDst s.params off 1 → exec (.r8 off) s = .next (afterBusError s))

/-- R24, R30, R32 to R36: what an R32 of each register reads (DST_LEN and ERR_INDEX on the idle block). -/
def Obligations.RegisterReads : Prop :=
  ∀ s : State, s.params.Wf →
    (∃ v, exec (.r32 0x4) s = .next (afterRead s v s.draws) ∧
      v.getLsbD 0 = s.block.busy ∧ v.getLsbD 1 = s.block.done ∧ v.getLsbD 2 = s.block.err ∧ v.getLsbD 3 = s.block.ovr ∧
      v.extractLsb' 8 4 = s.block.errcode ∧ v.extractLsb' 4 4 = 0 ∧ v.extractLsb' 12 20 = 0) ∧
    exec (.r32 0x8) s = .next (afterRead s s.block.srcLen s.draws) ∧
    (s.block.busy = false →
      exec (.r32 0xC) s = .next (afterRead s s.block.dstLen s.draws) ∧
      exec (.r32 0x10) s = .next (afterRead s s.block.errIdx s.draws)) ∧
    (∃ v, exec (.r32 0x14) s = .next (afterRead s v s.draws) ∧ v.toNat = s.params.srcDepth) ∧
    (∃ v, exec (.r32 0x18) s = .next (afterRead s v s.draws) ∧ v.toNat = s.params.dstDepth)

/-- R212: an aligned R32 inside a buffer (of DST: on the idle block). Byte k of the word is the cell's own value where it is
written and a draw of its own, taken by this transaction, where it is not; with every cell written no draw is taken. -/
def Obligations.BufferWordReads : Prop :=
  ∀ (off : Word) (s : State), s.params.Wf → off.toNat % 4 = 0 →
    let reads (m : Memory) (i : Nat) : Prop :=
      ∃ v d, exec (.r32 off) s = .next (afterRead s v d) ∧ ReadsAs m i 4 s.draws d (fun k => v.extractLsb' (8 * k) 8)
    (InSrc s.params off 4 → reads s.block.src (off.toNat - 0x10000)) ∧
    (InDst s.params off 4 → s.block.busy = false → reads s.block.dst (off.toNat - 0x20000))

/-- R63: a 32-bit buffer access is little-endian, both ways. -/
def Obligations.BufferWordsLittleEndian : Prop :=
  ∀ (off : Word) (s : State) (x0 x1 x2 x3 : Byte), s.params.Wf → off.toNat % 4 = 0 →
    let holds (m : Memory) (i : Nat) : Prop :=
      m.cell i = some x0 ∧ m.cell (i + 1) = some x1 ∧ m.cell (i + 2) = some x2 ∧ m.cell (i + 3) = some x3
    let reads : Prop := ∃ v, exec (.r32 off) s = .next (afterRead s v s.draws) ∧
      v.toNat = x0.toNat + x1.toNat * 2 ^ 8 + x2.toNat * 2 ^ 16 + x3.toNat * 2 ^ 24
    (InSrc s.params off 4 → holds s.block.src (off.toNat - 0x10000) → reads) ∧
    (InDst s.params off 4 → s.block.busy = false → holds s.block.dst (off.toNat - 0x20000) → reads) ∧
    (InSrc s.params off 4 → s.block.busy = false → ∀ data : Word, ∃ m,
      exec (.w32 off data) s = .next (afterWrite s { s.block with src := m }) ∧
      ∀ j, m.cell j =
        if j = off.toNat - 0x10000 then some (data.extractLsb' 0 8)
        else if j = off.toNat - 0x10000 + 1 then some (data.extractLsb' 8 8)
        else if j = off.toNat - 0x10000 + 2 then some (data.extractLsb' 16 8)
        else if j = off.toNat - 0x10000 + 3 then some (data.extractLsb' 24 8)
        else s.block.src.cell j)

/-- While BUSY = 1, DST_LEN, ERR_INDEX and the bytes of DST read as draws, and STATUS, SRC_LEN, SRC and the capacity registers read
their true values (after R277). Which of a word's draws comes first is the model's choice: in rising positions (log 21). -/
def Obligations.ReadsWhileBusy : Prop :=
  ∀ s : State, s.params.Wf → s.block.busy = true →
    let n := s.draws
    let drawn : Word := Config.draw8 (n + 3) ++ Config.draw8 (n + 2) ++ Config.draw8 (n + 1) ++ Config.draw8 n
    exec (.r32 0xC) s = .next (afterRead s drawn (n + 4)) ∧
    exec (.r32 0x10) s = .next (afterRead s drawn (n + 4)) ∧
    (∀ off, InDst s.params off 1 → exec (.r8 off) s = .next (afterRead s ((Config.draw8 n).setWidth 32) (n + 1))) ∧
    (∀ off, off.toNat % 4 = 0 → InDst s.params off 4 → exec (.r32 off) s = .next (afterRead s drawn (n + 4))) ∧
    (∃ v, exec (.r32 0x4) s = .next (afterRead s v n) ∧ v.getLsbD 0 = true ∧ v.getLsbD 1 = s.block.done ∧
      v.getLsbD 2 = s.block.err ∧ v.getLsbD 3 = s.block.ovr ∧ v.extractLsb' 8 4 = s.block.errcode) ∧
    exec (.r32 0x8) s = .next (afterRead s s.block.srcLen n) ∧
    exec (.r32 0x14) s = .next (afterRead s (BitVec.ofNat 32 s.params.srcDepth) n) ∧
    exec (.r32 0x18) s = .next (afterRead s (BitVec.ofNat 32 s.params.dstDepth) n) ∧
    (∀ off v, InSrc s.params off 1 → s.block.src.cell (off.toNat - 0x10000) = some v →
      exec (.r8 off) s = .next (afterRead s (v.setWidth 32) n)) ∧
    (∀ off, off.toNat % 4 = 0 → InSrc s.params off 4 → ∃ v d, exec (.r32 off) s = .next (afterRead s v d) ∧
      ReadsAs s.block.src (off.toNat - 0x10000) 4 n d (fun k => v.extractLsb' (8 * k) 8))

/-- R68: a read changes no state of the block, and a read to which none of the three exceptions applies gives the same value when
it is repeated. -/
def Obligations.ReadsHaveNoSideEffects : Prop :=
  ∀ (off : Word) (i : Instr) (w : Nat) (s t : State), s.params.Wf → (i = .r8 off ∧ w = 1 ∨ i = .r32 off ∧ w = 4) →
    exec i s = .next t →
    t.block = s.block ∧ t.params = s.params ∧ t.turns = s.turns ∧ t.host.program = s.host.program ∧
    (ReadsExactly s off w → ∀ u, exec i t = .next u →
      u.host.resp = t.host.resp ∧ u.host.lastRead = t.host.lastRead ∧ u.draws = s.draws)

/-! ### Host writes -/

/-- R211: W8 writes DATA[7:0] to its cell of SRC alone; while busy it is dropped and sets OVR; elsewhere it is a bus error. -/
def Obligations.ByteWrites : Prop :=
  ∀ (off data : Word) (s : State),
    (InSrc s.params off 1 → s.block.busy = false → ∃ m,
      exec (.w8 off data) s = .next (afterWrite s { s.block with src := m }) ∧
      ∀ j, m.cell j = if j = off.toNat - 0x10000 then some (data.extractLsb' 0 8) else s.block.src.cell j) ∧
    (InSrc s.params off 1 → s.block.busy = true →
      exec (.w8 off data) s = .next (afterWrite s { s.block with ovr := true })) ∧
    (¬ InSrc s.params off 1 → exec (.w8 off data) s = .next (afterBusError s))

/-- R32: SRC_LEN takes and gives back all 32 bits; a value above SRC_DEPTH makes the next completion fail with LEN_RANGE; a write
while busy is ignored and sets OVR; no command and no completion writes it. -/
def Obligations.SrcLenWritesAndReadsBack : Prop :=
  ∀ (v : Word) (s : State),
    (s.block.busy = false → exec (.w32 0x8 v) s = .next (afterWrite s { s.block with srcLen := v })) ∧
    (s.block.busy = false → ∀ t, exec (.w32 0x8 v) s = .next t →
      exec (.r32 0x8) t = .next (afterRead t v t.draws)) ∧
    (s.block.busy = true → exec (.w32 0x8 v) s = .next (afterWrite s { s.block with ovr := true })) ∧
    (programWf s.host.program = true → s.mover = .block → s.params.srcDepth < s.block.srcLen.toNat →
      ∃ t, step s = .next t ∧ SameButLatches t.block (errorBlock s.block 2 0)) ∧
    (∀ i t, i ∈ [Instr.nop, .encStd, .decStd, .clrstat, .encUrl, .decUrl] → exec i s = .next t →
      t.block.srcLen = s.block.srcLen) ∧
    (∀ t, s.mover = .block → step s = .next t → t.block.srcLen = s.block.srcLen)

/-- R276: while BUSY = 1 every permitted write is dropped but for OVR and answers OK; a forbidden one is a bus error and leaves
OVR. -/
def Obligations.WritesWhileBusyIgnored : Prop :=
  ∀ (i : Instr) (s : State), s.block.busy = true → IsWrite i →
    (Permitted s.params i → exec i s = .next (afterWrite s { s.block with ovr := true })) ∧
    (¬ Permitted s.params i → exec i s = .next (afterBusError s))

/-- R62: every access the table lists is answered OK, a read with its value and a write without one, and every other one BUS_ERROR. -/
def Obligations.AccessPermissions : Prop :=
  ∀ (i : Instr) (s : State), s.params.Wf →
    (Permitted s.params i → ∃ t, exec i s = .next t ∧ t.host.status = s.host.status ∧ t.host.pc = s.host.pc + 1 ∧
      (IsWrite i → t.host.resp = some .ok) ∧
      (¬ IsWrite i → ∃ v, t.host.resp = some (.okData v) ∧ t.host.lastRead = some v)) ∧
    (¬ Permitted s.params i → exec i s = .next (afterBusError s))

/-- R65: the six conditions under which a transaction answers BUS_ERROR and changes no state, whatever BUSY is. -/
def Obligations.BusErrorConditions : Prop :=
  ∀ (off data : Word) (s : State), s.params.Wf →
    let bad (i : Instr) : Prop := exec i s = .next (afterBusError s)
    let bytes : Prop := bad (.r8 off) ∧ bad (.w8 off data)
    let words : Prop := bad (.r32 off) ∧ bad (.w32 off data)
    (0x1C ≤ off.toNat → ¬ InSrc s.params off 1 → ¬ InDst s.params off 1 → bytes ∧ words) ∧
    (off.toNat < 0x1C → bytes) ∧
    (off.toNat % 4 ≠ 0 → words) ∧
    (InSrc s.params off 1 → ¬ InSrc s.params off 4 → words) ∧
    (InDst s.params off 1 → ¬ InDst s.params off 4 → words) ∧
    (off = 0x4 ∨ off = 0xC ∨ off = 0x10 ∨ off = 0x14 ∨ off = 0x18 → bad (.w32 off data)) ∧
    (InDst s.params off 1 → bad (.w8 off data) ∧ bad (.w32 off data)) ∧
    bad (.r32 0x0)

/-! ### Completion -/

/-- R131, R125, R126: the completion of an encode command: LEN_RANGE, then DST_OVERFLOW, else exactly `DST[0..m)` is written with the
encoded text and STATUS, DST_LEN and ERR_INDEX with it. The text is that of the bytes of SRC, each unwritten one a draw of its own that
this step takes (R40). -/
def Obligations.EncodeCompletion : Prop :=
  ∀ s : State, programWf s.host.program = true → s.params.Wf → s.block.StatusInv → s.mover = .block → s.block.opL = false →
    let n := s.block.srcLen.toNat
    let m := ((n + 2) / 3) * 4
    let a : Alphabet := if s.block.alphL then .url else .std
    (s.params.srcDepth < n → EndsIn s (errorBlock s.block 2 0) s.draws) ∧
    (n ≤ s.params.srcDepth → s.params.dstDepth < m → EndsIn s (errorBlock s.block 6 0) s.draws) ∧
    (n ≤ s.params.srcDepth → m ≤ s.params.dstDepth → ∃ (d : List Byte) (dst : Memory) (k : Nat), SrcReadAs s n d k ∧
      EndsIn s { s.block with busy := false, done := true, dstLen := BitVec.ofNat 32 m, errIdx := 0, dst := dst } k ∧
      s.block.err = false ∧ s.block.errcode = 0 ∧
      (encodeText a d).length = m ∧ Holds dst (encodeText a d) ∧ ∀ j, m ≤ j → dst.cell j = s.block.dst.cell j)

/-- R167, R160, R161: the completion of a decode command: LEN_RANGE, then VALIDATE's verdict, then DST_OVERFLOW, else exactly
`DST[0..m)` is written with the decoded bytes and STATUS, DST_LEN and ERR_INDEX with it. VALIDATE and DECODE see one text, the bytes of
SRC, each unwritten one a draw of its own that this step takes (R40). -/
def Obligations.DecodeCompletion : Prop :=
  ∀ s : State, programWf s.host.program = true → s.params.Wf → s.block.StatusInv → s.mover = .block → s.block.opL = true →
    let n := s.block.srcLen.toNat
    let a : Alphabet := if s.block.alphL then .url else .std
    (s.params.srcDepth < n → EndsIn s (errorBlock s.block 2 0) s.draws) ∧
    (n ≤ s.params.srcDepth → ∃ (t : List Byte) (k : Nat), SrcReadAs s n t k ∧
      (∀ i, validate a t = .fail .badLength i → EndsIn s (errorBlock s.block 3 0) k) ∧
      (∀ i, validate a t = .fail .badChar i → i < n ∧ EndsIn s (errorBlock s.block 4 i) k) ∧
      (∀ i, validate a t = .fail .badPad i → i < n ∧ EndsIn s (errorBlock s.block 5 i) k) ∧
      (∀ code i, validate a t = .fail code i → code = .badLength ∨ code = .badChar ∨ code = .badPad) ∧
      (∀ p, validate a t = .ok p →
        let m := (n / 4) * 3 - p
        (s.params.dstDepth < m → EndsIn s (errorBlock s.block 6 0) k) ∧
        (m ≤ s.params.dstDepth → ∃ dst : Memory,
          EndsIn s { s.block with busy := false, done := true, dstLen := BitVec.ofNat 32 m, errIdx := 0, dst := dst } k ∧
          s.block.err = false ∧ s.block.errcode = 0 ∧
          (decodeText a t p).length = m ∧ Holds dst (decodeText a t p) ∧ ∀ j, m ≤ j → dst.cell j = s.block.dst.cell j)))

/-- R151: a decode whose length is no multiple of 4 is BAD_LENGTH with ERR_INDEX 0, whatever its characters. -/
def Obligations.BadLengthBeforeCharacters : Prop :=
  (∀ (a : Alphabet) (t : List Byte), validate a t = .fail .badLength 0 ↔ t.length % 4 ≠ 0) ∧
  (∀ s : State, programWf s.host.program = true → s.mover = .block → s.block.opL = true →
    s.block.srcLen.toNat ≤ s.params.srcDepth → s.block.srcLen.toNat % 4 ≠ 0 →
    ∃ t, step s = .next t ∧ SameButLatches t.block (errorBlock s.block 3 0))

/-- A completion either delivers all its outputs or none: on an error no byte of DST changes and DST_LEN is 0 (after R244, which the
spec derives). It never changes SRC, SRC_LEN, OVR or the latches; that the latches keep their values is the model's choice, since the
spec leaves them open while BUSY = 0 (log 27). -/
def Obligations.CompletionAllOrNothing : Prop :=
  ∀ s t : State, s.Inv → s.mover = .block → step s = .next t →
    t.block.busy = false ∧ t.block.src = s.block.src ∧ t.block.srcLen = s.block.srcLen ∧ t.block.ovr = s.block.ovr ∧
    t.block.opL = s.block.opL ∧ t.block.alphL = s.block.alphL ∧
    ((t.block.done = true ∧ t.block.err = false ∧ t.block.errIdx = 0 ∧
        (∀ j, j < t.block.dstLen.toNat → t.block.dst.cell j ≠ none) ∧
        (∀ j, t.block.dstLen.toNat ≤ j → t.block.dst.cell j = s.block.dst.cell j)) ∨
     (t.block.done = false ∧ t.block.err = true ∧ t.block.dstLen = 0 ∧ t.block.dst = s.block.dst))

/-- The outcome of a completion depends on nothing but the latches, SRC_LEN, the bytes `SRC[0..SRC_LEN)` and the depths (after R15,
which the spec derives). -/
def Obligations.ResultDependsOnInputsOnly : Prop :=
  ∀ s s' t t' : State, s.mover = .block → s'.mover = .block → s.params.Wf → s.params = s'.params →
    s.block.opL = s'.block.opL → s.block.alphL = s'.block.alphL → s.block.srcLen = s'.block.srcLen →
    (∀ i, i < s.block.srcLen.toNat → s.block.src.cell i ≠ none ∧ s.block.src.cell i = s'.block.src.cell i) →
    s.block.err = false → s'.block.err = false → s.block.errcode = 0 → s'.block.errcode = 0 →
    step s = .next t → step s' = .next t' →
    t.block.done = t'.block.done ∧ t.block.err = t'.block.err ∧ t.block.errcode = t'.block.errcode ∧
    t.block.dstLen = t'.block.dstLen ∧ t.block.errIdx = t'.block.errIdx ∧
    (t.block.done = true → ∀ j, j < t.block.dstLen.toNat → t.block.dst.cell j = t'.block.dst.cell j)

/-- After R133: an encode, and then a decode of its copied output under the same alphabet, reproduce the input in DST. -/
def Obligations.EncodeThenDecodeRoundTrip : Prop :=
  ∀ (s u t : State) (d : List Byte),
    s.params.Wf → s.mover = .block → s.block.opL = false → s.block.srcLen.toNat = d.length → Holds s.block.src d →
    d.length ≤ s.params.srcDepth → ((d.length + 2) / 3) * 4 ≤ s.params.dstDepth → ((d.length + 2) / 3) * 4 ≤ s.params.srcDepth →
    step s = .next t →
    programWf u.host.program = true → u.params = s.params → u.mover = .block → u.block.opL = true →
    u.block.alphL = s.block.alphL → u.block.srcLen = t.block.dstLen →
    (∀ i, i < t.block.dstLen.toNat → u.block.src.cell i = t.block.dst.cell i) →
    ∃ v, step u = .next v ∧ v.block.done = true ∧ v.block.dstLen.toNat = d.length ∧ Holds v.block.dst d

/-! ### Reset -/

/-- The state after reset (R44): STATUS, SRC_LEN, DST_LEN and ERR_INDEX are 0 and every cell is unwritten. -/
def Obligations.ResetValues : Prop :=
  State.reset.block.statusWord = 0 ∧ State.reset.block.srcLen = 0 ∧ State.reset.block.dstLen = 0 ∧
  State.reset.block.errIdx = 0 ∧ (∀ i, State.reset.block.src.cell i = none ∧ State.reset.block.dst.cell i = none)

/-- A reset arrives whatever BUSY is, puts the block into its reset values, and abandons a running command (after R270). The latches are
left open. That the host agent and the draw counter stay is the model's choice (log 15); the depths stay by R35 and R36. -/
def Obligations.ResetEventResetsBlock : Prop :=
  ∀ (s : State) (rest : List Turn), programWf s.host.program = true → s.turns = .reset :: rest →
    ∃ b : BlockState, step s = .next { s with block := b, turns := rest } ∧
      b.busy = false ∧ b.done = false ∧ b.err = false ∧ b.ovr = false ∧ b.errcode = 0 ∧
      b.srcLen = 0 ∧ b.dstLen = 0 ∧ b.errIdx = 0 ∧ ∀ i, b.src.cell i = none ∧ b.dst.cell i = none

/-! ### The step -/

/-- A step of the host runs the decoded instruction, with the turn used up. -/
def Obligations.StepRunsDecodedInstruction : Prop :=
  ∀ (s : State) (x : HostTxn) (i : Instr), programWf s.host.program = true → s.mover = .host → s.host.status = .running →
    s.host.program[s.host.pc]? = some (.txn x) → decode (.txn x) = .ok i →
    step s = exec i { s with turns := s.turns.tail }

/-- An instruction placed by withFetchWord is the very next thing the machine runs, at the pc the host had, on the block it had
(log 9 and log 10 are the model's choice of how it is placed). -/
def Obligations.FetchWordRunsNext : Prop :=
  ∀ (s : State) (nbits w : Nat) (i : Instr), decodeTableWord nbits w = some i →
    ∃ h : HostAgent, h.pc = s.host.pc ∧ h.lastRead = s.host.lastRead ∧ h.status = .running ∧
      step (s.withFetchWord nbits w) = exec i { s with host := h }

/-- R196: the block steps exactly when BUSY = 1: never on the idle block, whatever the schedule, and always when it is given the turn
while busy. Its step does what its latches select, and every path sets BUSY to 0. -/
def Obligations.BlockStepsExactlyWhenBusy : Prop :=
  ∀ s : State,
    (s.mover = .block → s.block.busy = true) ∧
    (∀ rest, s.turns = .block :: rest → s.block.busy = true → s.mover = .block) ∧
    (programWf s.host.program = true → s.mover = .block →
      ∃ t, step s = .next t ∧ t.block.busy = false ∧ t.host = s.host ∧ t.turns = s.turns.tail ∧
        let a : Alphabet := if s.block.alphL then .url else .std
        (s.block.opL = false → t.block = (completeEncode s.params a s.block s.draws).1) ∧
        (s.block.opL = true → t.block = (completeDecode s.params a s.block s.draws).1))

/-- From every good state a step leads to a good state: the STATUS invariants of R31 (which the spec derives), the buffers in canonical
form and within their depths, DST_LEN within DST_DEPTH and its bytes written while DONE = 1, the parameters in range and the host's
pc inside its program. -/
def Obligations.StepKeepsInvariant : Prop :=
  ∀ s t : State, s.Inv → step s = .next t → t.Inv

/-- The machine after reset is a good state. Its depths are those of TC1 (log 4) and its host has no program (log 10): both are the
model's choice. -/
def Obligations.ResetMeetsTheInvariant : Prop := State.reset.Inv

/-- R25: BUSY rises only by the acceptance of a data command, and falls only by its completion or by reset. -/
def Obligations.BusyChangesOnlyByAcceptanceAndCompletion : Prop :=
  ∀ s t : State, step s = .next t →
    (s.block.busy = false → t.block.busy = true → ∃ w ∈ dataWords, Issues s (.w32 0x0 w)) ∧
    (s.block.busy = true → t.block.busy = false → s.mover = .block ∨ s.mover = .reset)

/-- R26: DONE rises only by a successful completion, and falls only by an acceptance, a reserved word, CLRSTAT or reset. -/
def Obligations.DoneChangesOnlyAsStated : Prop :=
  ∀ s t : State, s.Inv → step s = .next t →
    (s.block.done = false → t.block.done = true → s.mover = .block ∧ t.block.err = false) ∧
    (s.block.done = true → t.block.done = false →
      s.mover = .reset ∨ (s.block.busy = false ∧ ∃ w, Issues s (.w32 0x0 w) ∧ w ≠ 0x0)) ∧
    (s.block.busy = false → ∀ w, Issues s (.w32 0x0 w) → w ≠ 0x0 → t.block.done = false) ∧
    (s.mover = .reset → t.block.done = false)

/-- R27: ERR rises only by the error outcome of a completion or of a reserved word, and falls only by an acceptance, CLRSTAT or
reset. -/
def Obligations.ErrChangesOnlyAsStated : Prop :=
  ∀ s t : State, step s = .next t →
    (s.block.err = false → t.block.err = true →
      (s.mover = .block ∨ ∃ w r, Issues s (.w32 0x0 w) ∧ decode (.cmd w) = .error r) ∧
      t.block.busy = false ∧ t.block.done = false ∧ t.block.dstLen = 0 ∧ 1 ≤ t.block.errcode.toNat ∧ t.block.errcode.toNat ≤ 6) ∧
    (s.block.err = true → t.block.err = false →
      s.mover = .reset ∨ ∃ w, Issues s (.w32 0x0 w) ∧ (w ∈ dataWords ∨ w = 0x3)) ∧
    (s.block.busy = false → ∀ w, Issues s (.w32 0x0 w) → (w ∈ dataWords ∨ w = 0x3) → t.block.err = false) ∧
    (s.mover = .reset → t.block.err = false)

/-- R28: OVR rises only when a permitted host write is ignored because BUSY = 1, and falls only by an acceptance, CLRSTAT or reset; a
completion leaves it. -/
def Obligations.OvrChangesOnlyAsStated : Prop :=
  ∀ s t : State, step s = .next t →
    (s.block.ovr = false → t.block.ovr = true →
      s.block.busy = true ∧ ∃ i, Issues s i ∧ IsWrite i ∧ Permitted s.params i) ∧
    (s.block.ovr = true → t.block.ovr = false →
      s.mover = .reset ∨ (s.block.busy = false ∧ ∃ w, Issues s (.w32 0x0 w) ∧ (w ∈ dataWords ∨ w = 0x3))) ∧
    (s.block.busy = true → ∀ i, Issues s i → IsWrite i → Permitted s.params i → t.block.ovr = true) ∧
    (s.block.busy = false → ∀ w, Issues s (.w32 0x0 w) → (w ∈ dataWords ∨ w = 0x3) → t.block.ovr = false) ∧
    (s.mover = .reset → t.block.ovr = false) ∧
    (s.mover = .block → t.block.ovr = s.block.ovr)

/-- Who writes the buffers and the lengths (after R32, R33, R37, R38): SRC changes only by a host write into SRC on the idle block,
SRC_LEN only by a W32 to it, DST only by a successful completion, DST_LEN only by a completion or a reserved word; or by reset. -/
def Obligations.BuffersAndLengthsWriters : Prop :=
  ∀ s t : State, step s = .next t → s.mover ≠ .reset →
    (t.block.src ≠ s.block.src → s.block.busy = false ∧ ∃ off data,
      (Issues s (.w8 off data) ∧ InSrc s.params off 1) ∨ (Issues s (.w32 off data) ∧ InSrc s.params off 4)) ∧
    (t.block.srcLen ≠ s.block.srcLen → s.block.busy = false ∧ Issues s (.w32 0x8 t.block.srcLen)) ∧
    (t.block.dst ≠ s.block.dst → s.mover = .block ∧ t.block.done = true) ∧
    (t.block.dstLen ≠ s.block.dstLen → s.mover = .block ∨ ∃ w r, Issues s (.w32 0x0 w) ∧ decode (.cmd w) = .error r)

/-- While a command runs no step but its completion or a reset changes what it will read: SRC, SRC_LEN, the latches and the outputs
stay, so the command sees the values that held at its acceptance (after R80 item 3). -/
def Obligations.RunningCommandSeesItsInputs : Prop :=
  ∀ s t : State, step s = .next t → s.block.busy = true → t.block.busy = true →
    t.block = { s.block with ovr := t.block.ovr } ∧ t.params = s.params

/-- A permitted host write that meets a running command, be it a W8, or a W32 to CMD, SRC_LEN or SRC: if it comes first it is ignored and
sets OVR, and if the completion comes first it takes its effect on the idle block. The schedule, which is the model's (log 1), admits
both (after R249). -/
def Obligations.WriteAndCompletionBothOrders : Prop :=
  ∀ (s : State) (x : HostTxn) (i : Instr), programWf s.host.program = true → s.block.busy = true → s.host.status = .running →
    s.host.program[s.host.pc]? = some (.txn x) → decode (.txn x) = .ok i → IsWrite i → Permitted s.params i →
    (∃ t, step { s with turns := [.host, .block] } = .next t ∧ t.block = { s.block with ovr := true } ∧
      ∃ u, step t = .next u ∧ u.block.busy = false ∧ u.block.ovr = true ∧ u.block.src = s.block.src ∧
        u.block.srcLen = s.block.srcLen) ∧
    (∃ t, step { s with turns := [.block, .host] } = .next t ∧ t.block.busy = false ∧ t.block.src = s.block.src ∧
      t.block.srcLen = s.block.srcLen ∧ t.block.ovr = s.block.ovr ∧
      ∃ u, step t = .next u ∧ exec i { t with turns := [] } = .next u ∧
        (∀ off data, i = .w8 off data → u.block.ovr = s.block.ovr ∧
          u.block.src.cell (off.toNat - 0x10000) = some (data.extractLsb' 0 8)) ∧
        (∀ data, i = .w32 0x8 data → u.block.ovr = s.block.ovr ∧ u.block.srcLen = data) ∧
        (∀ off data, i = .w32 off data → InSrc s.params off 4 → u.block.ovr = s.block.ovr ∧
          ∀ k, k < 4 → u.block.src.cell (off.toNat - 0x10000 + k) = some (data.extractLsb' (8 * k) 8)) ∧
        (∀ w c, i = .w32 0x0 w → decode (.cmd w) = .ok c → exec c { t with turns := [] } = .next u) ∧
        (∀ w, i = .w32 0x0 w → (w ∈ dataWords ↔ u.block.busy = true)) ∧
        (∀ w r, i = .w32 0x0 w → decode (.cmd w) = .error r → u.block = errorBlock t.block 1 0))

/-- Every accepted command completes: BUSY is 0 again after at most one step more than the schedule has turns. The finite schedule with
prompt completion at its end is the model's form of weak fairness (log 1, log 18; after R82 and R215). -/
def Obligations.AcceptedCommandCompletes : Prop :=
  ∀ s : State, programWf s.host.program = true → s.block.busy = true →
    ∃ k t, k ≤ s.turns.length + 1 ∧ Host.Core.run Sys2Proof.core k s = .next t ∧ t.block.busy = false

/-! ### The host agent -/

/-- BNZ, BZ and HALT, a transaction that answers OK, running past the last statement, and the refusal of an ill-formed program (after
R214). That HALT, and the end of the program, set the host's status in one step and leave its pc is the model's choice (log 12), and
that an ill-formed program is refused as a whole, before any agent moves, is the model's reading (log 13). -/
def Obligations.HostControlFlow : Prop :=
  ∀ s : State,
    ((∃ st ∈ s.host.program, ∃ mask k, (st = .bnz mask k ∨ st = .bz mask k) ∧ s.host.program.length ≤ k) →
      step s = .refused .illFormedProgram) ∧
    (programWf s.host.program = true → s.mover = .host → s.host.status = .running →
      let goes (h : HostAgent) : Result := .next { s with host := h, turns := s.turns.tail }
      (∀ mask k v, s.host.program[s.host.pc]? = some (.bnz mask k) → s.host.lastRead = some v →
        (v &&& mask ≠ 0 → step s = goes { s.host with pc := k }) ∧
        (v &&& mask = 0 → step s = goes { s.host with pc := s.host.pc + 1 })) ∧
      (∀ mask k v, s.host.program[s.host.pc]? = some (.bz mask k) → s.host.lastRead = some v →
        (v &&& mask = 0 → step s = goes { s.host with pc := k }) ∧
        (v &&& mask ≠ 0 → step s = goes { s.host with pc := s.host.pc + 1 })) ∧
      (s.host.program[s.host.pc]? = some .halt → step s = goes { s.host with status := .halted }) ∧
      (s.host.program.length ≤ s.host.pc → step s = goes { s.host with status := .halted }) ∧
      (∀ x t, s.host.program[s.host.pc]? = some (.txn x) → step s = .next t → t.host.resp ≠ some .busError →
        t.host.pc = s.host.pc + 1))

/-- A BNZ or BZ before any read faults the host (R108), naming the statement. -/
def Obligations.BranchBeforeReadFaults : Prop :=
  ∀ (s : State) (mask : Word) (k : Nat), programWf s.host.program = true → s.mover = .host → s.host.status = .running →
    s.host.lastRead = none →
    (s.host.program[s.host.pc]? = some (.bnz mask k) ∨ s.host.program[s.host.pc]? = some (.bz mask k)) →
    step s = .next { s with host := { s.host with status := .faulted s.host.pc }, turns := s.turns.tail }

/-- A bus error puts the host into the fault state that names the statement; it is never cleared, the block may still complete, and a
faulted host beside an idle block never ends in a final state (after R247). That the machine stops there with a fault is the model's
choice (log 11), and so is that every step beside a faulted host and a running command is the block's or a reset (log 2). -/
def Obligations.HostFaultIsForever : Prop :=
  (∀ (i : Instr) (s t : State), exec i s = .next t → t.host.resp = some .busError →
    t.host.status = .faulted s.host.pc ∧ t.block = s.block) ∧
  (∀ (s t : State) (k : Nat), s.host.status = .faulted k → step s = .next t → t.host = s.host) ∧
  (∀ (s : State) (k : Nat), programWf s.host.program = true → s.host.status = .faulted k → s.block.busy = true →
    ∃ t, step s = .next t ∧ t.block.busy = false) ∧
  (∀ (s : State) (k : Nat), programWf s.host.program = true → s.host.status = .faulted k → s.block.busy = false →
    s.mover ≠ .reset → step s = .fault (.hostFaulted k))

/-- R109: the expansions of WAIT, RUN, LOADB and LOAD, at every statement index `k`, and that a written program is its lines' expansions in
order, each made for the index at which its own statements stand. -/
def Obligations.PseudoInstructionsExpand : Prop :=
  (∀ (table : List (String × Nat)) (k : Nat),
    expandLine table k .wait = .ok [.txn ⟨0b01, 0x4, 0⟩, .bnz 0x1 k] ∧
    (∀ w : Word, expandLine table k (.run w) = .ok [.txn ⟨0b11, 0x0, w⟩, .txn ⟨0b01, 0x4, 0⟩, .bnz 0x1 (k + 1)]) ∧
    (∀ bytes : List Byte, ∃ here, expandLine table k (.loadb bytes) = .ok here ∧ here.length = bytes.length + 1 ∧
      (∀ i (hi : i < bytes.length),
        here[i]? = some (.txn ⟨0b10, BitVec.ofNat 32 (0x10000 + i), (bytes[i]).setWidth 32⟩)) ∧
      here[bytes.length]? = some (.txn ⟨0b11, 0x8, BitVec.ofNat 32 bytes.length⟩)) ∧
    (∀ text : String, (∀ c ∈ text.toList, c.toNat < 128) → ∃ bytes : List Byte,
      bytes.map BitVec.toNat = text.toList.map Char.toNat ∧
      expandLine table k (.load text) = expandLine table k (.loadb bytes)) ∧
    expandLine table k (.load "") = .ok [.txn ⟨0b11, 0x8, 0⟩]) ∧
  (∀ (pre : List SrcLine) (line : SrcLine) (post : List SrcLine) (prog : List Stmt),
    assemble (pre ++ line :: post) = .ok prog →
      let table := labelTable 0 (pre ++ line :: post)
      ∃ front here back, prog = front ++ here ++ back ∧ expandAll table 0 pre = .ok front ∧
        expandLine table front.length line = .ok here ∧
        expandAll table (front.length + here.length) post = .ok back) ∧
  (∀ line : SrcLine, (line = .wait ∨ (∃ w, line = .run w) ∨ (∃ bytes, line = .loadb bytes) ∨
      ∃ text, line = .load text ∧ ∀ c ∈ text.toList, c.toNat < 128) →
    ∃ here, expandLine [] 0 line = .ok here ∧ assemble [line] = .ok here)

/-- Every program the notation accepts is well formed: each branch names a statement (R214). -/
def Obligations.AssembledProgramsWellFormed : Prop :=
  ∀ (lines : List SrcLine) (prog : List Stmt), assemble lines = .ok prog → programWf prog = true

end
end

