-- ==== Sys2Proof/Laws/Memory.lean ====
section
/-! SUPPORT. Buffer cells: read after write, and that every memory operation keeps the canonical form and the depth. -/

namespace Sys2Proof.Machine

@[simp] theorem Memory.cell_nil (i : Nat) : Memory.cell [] i = none := rfl

theorem Memory.cell_cons (a : Nat) (v : Byte) (m : Memory) (i : Nat) :
    Memory.cell ((a, v) :: m) i = if i = a then some v else Memory.cell m i := rfl

/-- A read after a write gives the value written at its position and leaves every other cell alone. -/
theorem Memory.cell_write (m : Memory) (i : Nat) (v : Byte) (j : Nat) :
    (m.write i v).cell j = if j = i then some v else m.cell j := by
  induction m with
  | nil => rfl
  | cons e m ih =>
    obtain ⟨a, u⟩ := e
    unfold Memory.write
    split
    · simp only [Memory.cell_cons]
    · split
      · subst_vars
        simp only [Memory.cell_cons]
        split <;> rfl
      · simp only [Memory.cell_cons, ih]
        split <;> split <;> simp_all

/-- What consecutive writes leave in each cell. -/
theorem Memory.cell_writeAll (vs : List Byte) (m : Memory) (i j : Nat) :
    (m.writeAll i vs).cell j = if i ≤ j ∧ j < i + vs.length then vs[j - i]? else m.cell j := by
  induction vs generalizing m i with
  | nil => simp [Memory.writeAll]
  | cons v vs ih =>
    rw [Memory.writeAll, ih, Memory.cell_write, List.length_cons]
    by_cases hj : j = i
    · subst hj
      rw [if_neg (by omega), if_pos rfl, if_pos (by omega)]
      simp
    · rw [if_neg hj]
      by_cases hr : i + 1 ≤ j ∧ j < i + 1 + vs.length
      · rw [if_pos hr, if_pos (by omega), show j - i = (j - (i + 1)) + 1 by omega, List.getElem?_cons_succ]
      · rw [if_neg hr, if_neg (by omega)]

/-- Every entry a write leaves is the one written or an old one. -/
theorem Memory.mem_write {m : Memory} {i : Nat} {v : Byte} {e : Host.Cell} (h : e ∈ m.write i v) : e = (i, v) ∨ e ∈ m := by
  induction m with
  | nil => exact .inl (by simpa [Memory.write] using h)
  | cons x m ih =>
    obtain ⟨a, u⟩ := x
    unfold Memory.write at h
    split at h
    · simpa using h
    · split at h
      · exact (List.mem_cons.1 h).imp_right (List.mem_cons_of_mem _)
      · rcases List.mem_cons.1 h with rfl | h
        · exact .inr (by simp)
        · exact (ih h).imp_right (List.mem_cons_of_mem _)

/-- A write keeps the canonical form. -/
theorem Memory.wf_write {m : Memory} (h : m.Wf) (i : Nat) (v : Byte) : (m.write i v).Wf := by
  induction m with
  | nil => simp [Memory.write]
  | cons x m ih =>
    obtain ⟨a, u⟩ := x
    obtain ⟨ha, hm⟩ := List.pairwise_cons.1 h
    unfold Memory.write
    split
    · refine List.pairwise_cons.2 ⟨fun e he => ?_, h⟩
      rcases List.mem_cons.1 he with rfl | he
      · assumption
      · exact Nat.lt_trans ‹i < a› (ha e he)
    · split
      · subst_vars
        exact List.pairwise_cons.2 ⟨ha, hm⟩
      · refine List.pairwise_cons.2 ⟨fun e he => ?_, ih hm⟩
        rcases Memory.mem_write he with rfl | he
        · show a < i
          omega
        · exact ha e he

/-- Consecutive writes keep the canonical form. -/
theorem Memory.wf_writeAll (vs : List Byte) {m : Memory} (h : m.Wf) (i : Nat) : (m.writeAll i vs).Wf := by
  induction vs generalizing m i with
  | nil => exact h
  | cons v vs ih => exact ih (Memory.wf_write h i v) (i + 1)

/-- Consecutive writes below the depth stay below the depth. -/
theorem Memory.within_writeAll (vs : List Byte) {m : Memory} {depth : Nat} (h : m.Within depth) (i : Nat)
    (hi : i + vs.length ≤ depth) : (m.writeAll i vs).Within depth := by
  induction vs generalizing m i with
  | nil => exact h
  | cons v vs ih =>
    rw [List.length_cons] at hi
    refine ih (fun e he => ?_) (i + 1) (by omega)
    rcases Memory.mem_write he with rfl | he
    · show i < depth
      omega
    · exact h e he

/-- The buffers of a machine after reset hold nothing, in canonical form. -/
theorem Memory.wf_reset : State.reset.block.src.Wf ∧ State.reset.block.dst.Wf := ⟨.nil, .nil⟩

end Sys2Proof.Machine
end

