-- ==== Sys2Proof/Laws/State.lean ====
section
/-! SUPPORT. One lemma per field per update, so that no later proof unfolds a record update. -/

namespace Sys2Proof.Machine

/-! ### The block's updates -/

@[simp] theorem BlockState.setOvr_busy (b : BlockState) : (b.setOvr).busy = b.busy := rfl
@[simp] theorem BlockState.setOvr_done (b : BlockState) : (b.setOvr).done = b.done := rfl
@[simp] theorem BlockState.setOvr_err (b : BlockState) : (b.setOvr).err = b.err := rfl
@[simp] theorem BlockState.setOvr_ovr (b : BlockState) : (b.setOvr).ovr = true := rfl
@[simp] theorem BlockState.setOvr_errcode (b : BlockState) : (b.setOvr).errcode = b.errcode := rfl
@[simp] theorem BlockState.setOvr_srcLen (b : BlockState) : (b.setOvr).srcLen = b.srcLen := rfl
@[simp] theorem BlockState.setOvr_dstLen (b : BlockState) : (b.setOvr).dstLen = b.dstLen := rfl
@[simp] theorem BlockState.setOvr_errIdx (b : BlockState) : (b.setOvr).errIdx = b.errIdx := rfl
@[simp] theorem BlockState.setOvr_opL (b : BlockState) : (b.setOvr).opL = b.opL := rfl
@[simp] theorem BlockState.setOvr_alphL (b : BlockState) : (b.setOvr).alphL = b.alphL := rfl
@[simp] theorem BlockState.setOvr_src (b : BlockState) : (b.setOvr).src = b.src := rfl
@[simp] theorem BlockState.setOvr_dst (b : BlockState) : (b.setOvr).dst = b.dst := rfl

@[simp] theorem BlockState.clearStatus_busy (b : BlockState) : (b.clearStatus).busy = b.busy := rfl
@[simp] theorem BlockState.clearStatus_done (b : BlockState) : (b.clearStatus).done = false := rfl
@[simp] theorem BlockState.clearStatus_err (b : BlockState) : (b.clearStatus).err = false := rfl
@[simp] theorem BlockState.clearStatus_ovr (b : BlockState) : (b.clearStatus).ovr = false := rfl
@[simp] theorem BlockState.clearStatus_errcode (b : BlockState) : (b.clearStatus).errcode = 0 := rfl
@[simp] theorem BlockState.clearStatus_srcLen (b : BlockState) : (b.clearStatus).srcLen = b.srcLen := rfl
@[simp] theorem BlockState.clearStatus_dstLen (b : BlockState) : (b.clearStatus).dstLen = b.dstLen := rfl
@[simp] theorem BlockState.clearStatus_errIdx (b : BlockState) : (b.clearStatus).errIdx = 0 := rfl
@[simp] theorem BlockState.clearStatus_opL (b : BlockState) : (b.clearStatus).opL = b.opL := rfl
@[simp] theorem BlockState.clearStatus_alphL (b : BlockState) : (b.clearStatus).alphL = b.alphL := rfl
@[simp] theorem BlockState.clearStatus_src (b : BlockState) : (b.clearStatus).src = b.src := rfl
@[simp] theorem BlockState.clearStatus_dst (b : BlockState) : (b.clearStatus).dst = b.dst := rfl

@[simp] theorem BlockState.accept_busy (op : Bool) (a : Alphabet) (b : BlockState) : (b.accept op a).busy = true := rfl
@[simp] theorem BlockState.accept_done (op : Bool) (a : Alphabet) (b : BlockState) : (b.accept op a).done = false := rfl
@[simp] theorem BlockState.accept_err (op : Bool) (a : Alphabet) (b : BlockState) : (b.accept op a).err = false := rfl
@[simp] theorem BlockState.accept_ovr (op : Bool) (a : Alphabet) (b : BlockState) : (b.accept op a).ovr = false := rfl
@[simp] theorem BlockState.accept_errcode (op : Bool) (a : Alphabet) (b : BlockState) : (b.accept op a).errcode = 0 := rfl
@[simp] theorem BlockState.accept_srcLen (op : Bool) (a : Alphabet) (b : BlockState) : (b.accept op a).srcLen = b.srcLen := rfl
@[simp] theorem BlockState.accept_dstLen (op : Bool) (a : Alphabet) (b : BlockState) : (b.accept op a).dstLen = b.dstLen := rfl
@[simp] theorem BlockState.accept_errIdx (op : Bool) (a : Alphabet) (b : BlockState) : (b.accept op a).errIdx = b.errIdx := rfl
@[simp] theorem BlockState.accept_opL (op : Bool) (a : Alphabet) (b : BlockState) : (b.accept op a).opL = op := rfl
@[simp] theorem BlockState.accept_alphL (op : Bool) (a : Alphabet) (b : BlockState) : (b.accept op a).alphL = decide (a = .url) := rfl
@[simp] theorem BlockState.accept_src (op : Bool) (a : Alphabet) (b : BlockState) : (b.accept op a).src = b.src := rfl
@[simp] theorem BlockState.accept_dst (op : Bool) (a : Alphabet) (b : BlockState) : (b.accept op a).dst = b.dst := rfl

@[simp] theorem BlockState.opError_busy (c : ErrCode) (i : Nat) (b : BlockState) : (b.opError c i).busy = false := rfl
@[simp] theorem BlockState.opError_done (c : ErrCode) (i : Nat) (b : BlockState) : (b.opError c i).done = false := rfl
@[simp] theorem BlockState.opError_err (c : ErrCode) (i : Nat) (b : BlockState) : (b.opError c i).err = true := rfl
@[simp] theorem BlockState.opError_ovr (c : ErrCode) (i : Nat) (b : BlockState) : (b.opError c i).ovr = b.ovr := rfl
@[simp] theorem BlockState.opError_errcode (c : ErrCode) (i : Nat) (b : BlockState) : (b.opError c i).errcode = c.code := rfl
@[simp] theorem BlockState.opError_srcLen (c : ErrCode) (i : Nat) (b : BlockState) : (b.opError c i).srcLen = b.srcLen := rfl
@[simp] theorem BlockState.opError_dstLen (c : ErrCode) (i : Nat) (b : BlockState) : (b.opError c i).dstLen = 0 := rfl
@[simp] theorem BlockState.opError_errIdx (c : ErrCode) (i : Nat) (b : BlockState) : (b.opError c i).errIdx = BitVec.ofNat 32 i := rfl
@[simp] theorem BlockState.opError_opL (c : ErrCode) (i : Nat) (b : BlockState) : (b.opError c i).opL = b.opL := rfl
@[simp] theorem BlockState.opError_alphL (c : ErrCode) (i : Nat) (b : BlockState) : (b.opError c i).alphL = b.alphL := rfl
@[simp] theorem BlockState.opError_src (c : ErrCode) (i : Nat) (b : BlockState) : (b.opError c i).src = b.src := rfl
@[simp] theorem BlockState.opError_dst (c : ErrCode) (i : Nat) (b : BlockState) : (b.opError c i).dst = b.dst := rfl

@[simp] theorem BlockState.succeed_busy (out : List Byte) (b : BlockState) : (b.succeed out).busy = false := rfl
@[simp] theorem BlockState.succeed_done (out : List Byte) (b : BlockState) : (b.succeed out).done = true := rfl
@[simp] theorem BlockState.succeed_err (out : List Byte) (b : BlockState) : (b.succeed out).err = b.err := rfl
@[simp] theorem BlockState.succeed_ovr (out : List Byte) (b : BlockState) : (b.succeed out).ovr = b.ovr := rfl
@[simp] theorem BlockState.succeed_errcode (out : List Byte) (b : BlockState) : (b.succeed out).errcode = b.errcode := rfl
@[simp] theorem BlockState.succeed_srcLen (out : List Byte) (b : BlockState) : (b.succeed out).srcLen = b.srcLen := rfl
@[simp] theorem BlockState.succeed_dstLen (out : List Byte) (b : BlockState) : (b.succeed out).dstLen = BitVec.ofNat 32 out.length := rfl
@[simp] theorem BlockState.succeed_errIdx (out : List Byte) (b : BlockState) : (b.succeed out).errIdx = 0 := rfl
@[simp] theorem BlockState.succeed_opL (out : List Byte) (b : BlockState) : (b.succeed out).opL = b.opL := rfl
@[simp] theorem BlockState.succeed_alphL (out : List Byte) (b : BlockState) : (b.succeed out).alphL = b.alphL := rfl
@[simp] theorem BlockState.succeed_src (out : List Byte) (b : BlockState) : (b.succeed out).src = b.src := rfl
@[simp] theorem BlockState.succeed_dst (out : List Byte) (b : BlockState) : (b.succeed out).dst = b.dst.writeAll 0 out := rfl

@[simp] theorem BlockState.writeSrc_busy (i : Nat) (vs : List Byte) (b : BlockState) : (b.writeSrc i vs).busy = b.busy := rfl
@[simp] theorem BlockState.writeSrc_done (i : Nat) (vs : List Byte) (b : BlockState) : (b.writeSrc i vs).done = b.done := rfl
@[simp] theorem BlockState.writeSrc_err (i : Nat) (vs : List Byte) (b : BlockState) : (b.writeSrc i vs).err = b.err := rfl
@[simp] theorem BlockState.writeSrc_ovr (i : Nat) (vs : List Byte) (b : BlockState) : (b.writeSrc i vs).ovr = b.ovr := rfl
@[simp] theorem BlockState.writeSrc_errcode (i : Nat) (vs : List Byte) (b : BlockState) : (b.writeSrc i vs).errcode = b.errcode := rfl
@[simp] theorem BlockState.writeSrc_srcLen (i : Nat) (vs : List Byte) (b : BlockState) : (b.writeSrc i vs).srcLen = b.srcLen := rfl
@[simp] theorem BlockState.writeSrc_dstLen (i : Nat) (vs : List Byte) (b : BlockState) : (b.writeSrc i vs).dstLen = b.dstLen := rfl
@[simp] theorem BlockState.writeSrc_errIdx (i : Nat) (vs : List Byte) (b : BlockState) : (b.writeSrc i vs).errIdx = b.errIdx := rfl
@[simp] theorem BlockState.writeSrc_opL (i : Nat) (vs : List Byte) (b : BlockState) : (b.writeSrc i vs).opL = b.opL := rfl
@[simp] theorem BlockState.writeSrc_alphL (i : Nat) (vs : List Byte) (b : BlockState) : (b.writeSrc i vs).alphL = b.alphL := rfl
@[simp] theorem BlockState.writeSrc_src (i : Nat) (vs : List Byte) (b : BlockState) : (b.writeSrc i vs).src = b.src.writeAll i vs := rfl
@[simp] theorem BlockState.writeSrc_dst (i : Nat) (vs : List Byte) (b : BlockState) : (b.writeSrc i vs).dst = b.dst := rfl

@[simp] theorem BlockState.setSrcLen_busy (v : Word) (b : BlockState) : (b.setSrcLen v).busy = b.busy := rfl
@[simp] theorem BlockState.setSrcLen_done (v : Word) (b : BlockState) : (b.setSrcLen v).done = b.done := rfl
@[simp] theorem BlockState.setSrcLen_err (v : Word) (b : BlockState) : (b.setSrcLen v).err = b.err := rfl
@[simp] theorem BlockState.setSrcLen_ovr (v : Word) (b : BlockState) : (b.setSrcLen v).ovr = b.ovr := rfl
@[simp] theorem BlockState.setSrcLen_errcode (v : Word) (b : BlockState) : (b.setSrcLen v).errcode = b.errcode := rfl
@[simp] theorem BlockState.setSrcLen_srcLen (v : Word) (b : BlockState) : (b.setSrcLen v).srcLen = v := rfl
@[simp] theorem BlockState.setSrcLen_dstLen (v : Word) (b : BlockState) : (b.setSrcLen v).dstLen = b.dstLen := rfl
@[simp] theorem BlockState.setSrcLen_errIdx (v : Word) (b : BlockState) : (b.setSrcLen v).errIdx = b.errIdx := rfl
@[simp] theorem BlockState.setSrcLen_opL (v : Word) (b : BlockState) : (b.setSrcLen v).opL = b.opL := rfl
@[simp] theorem BlockState.setSrcLen_alphL (v : Word) (b : BlockState) : (b.setSrcLen v).alphL = b.alphL := rfl
@[simp] theorem BlockState.setSrcLen_src (v : Word) (b : BlockState) : (b.setSrcLen v).src = b.src := rfl
@[simp] theorem BlockState.setSrcLen_dst (v : Word) (b : BlockState) : (b.setSrcLen v).dst = b.dst := rfl

/-! ### The host agent's updates -/

@[simp] theorem HostAgent.answerRead_program (v : Word) (h : HostAgent) : (h.answerRead v).program = h.program := rfl
@[simp] theorem HostAgent.answerRead_pc (v : Word) (h : HostAgent) : (h.answerRead v).pc = h.pc + 1 := rfl
@[simp] theorem HostAgent.answerRead_lastRead (v : Word) (h : HostAgent) : (h.answerRead v).lastRead = some v := rfl
@[simp] theorem HostAgent.answerRead_status (v : Word) (h : HostAgent) : (h.answerRead v).status = h.status := rfl
@[simp] theorem HostAgent.answerRead_resp (v : Word) (h : HostAgent) : (h.answerRead v).resp = some (.okData v) := rfl

@[simp] theorem HostAgent.answerWrite_program (h : HostAgent) : (h.answerWrite).program = h.program := rfl
@[simp] theorem HostAgent.answerWrite_pc (h : HostAgent) : (h.answerWrite).pc = h.pc + 1 := rfl
@[simp] theorem HostAgent.answerWrite_lastRead (h : HostAgent) : (h.answerWrite).lastRead = h.lastRead := rfl
@[simp] theorem HostAgent.answerWrite_status (h : HostAgent) : (h.answerWrite).status = h.status := rfl
@[simp] theorem HostAgent.answerWrite_resp (h : HostAgent) : (h.answerWrite).resp = some .ok := rfl

@[simp] theorem HostAgent.fault_program (h : HostAgent) : (h.fault).program = h.program := rfl
@[simp] theorem HostAgent.fault_pc (h : HostAgent) : (h.fault).pc = h.pc := rfl
@[simp] theorem HostAgent.fault_lastRead (h : HostAgent) : (h.fault).lastRead = h.lastRead := rfl
@[simp] theorem HostAgent.fault_status (h : HostAgent) : (h.fault).status = .faulted h.pc := rfl
@[simp] theorem HostAgent.fault_resp (h : HostAgent) : (h.fault).resp = h.resp := rfl

@[simp] theorem HostAgent.busError_program (h : HostAgent) : (h.busError).program = h.program := rfl
@[simp] theorem HostAgent.busError_pc (h : HostAgent) : (h.busError).pc = h.pc := rfl
@[simp] theorem HostAgent.busError_lastRead (h : HostAgent) : (h.busError).lastRead = h.lastRead := rfl
@[simp] theorem HostAgent.busError_status (h : HostAgent) : (h.busError).status = .faulted h.pc := rfl
@[simp] theorem HostAgent.busError_resp (h : HostAgent) : (h.busError).resp = some .busError := rfl

@[simp] theorem HostAgent.halt_program (h : HostAgent) : (h.halt).program = h.program := rfl
@[simp] theorem HostAgent.halt_pc (h : HostAgent) : (h.halt).pc = h.pc := rfl
@[simp] theorem HostAgent.halt_lastRead (h : HostAgent) : (h.halt).lastRead = h.lastRead := rfl
@[simp] theorem HostAgent.halt_status (h : HostAgent) : (h.halt).status = .halted := rfl
@[simp] theorem HostAgent.halt_resp (h : HostAgent) : (h.halt).resp = h.resp := rfl

/-! ### The machine's updates -/

@[simp] theorem State.takeTurn_block (s : State) : (s.takeTurn).block = s.block := rfl
@[simp] theorem State.takeTurn_params (s : State) : (s.takeTurn).params = s.params := rfl
@[simp] theorem State.takeTurn_host (s : State) : (s.takeTurn).host = s.host := rfl
@[simp] theorem State.takeTurn_turns (s : State) : (s.takeTurn).turns = s.turns.tail := rfl
@[simp] theorem State.takeTurn_draws (s : State) : (s.takeTurn).draws = s.draws := rfl

@[simp] theorem State.withNext_block (t : HostTxn) (s : State) : (s.withNext t).block = s.block := rfl
@[simp] theorem State.withNext_params (t : HostTxn) (s : State) : (s.withNext t).params = s.params := rfl
@[simp] theorem State.withNext_host (t : HostTxn) (s : State) : (s.withNext t).host = s.host.withNext t := rfl
@[simp] theorem State.withNext_turns (t : HostTxn) (s : State) : (s.withNext t).turns = .host :: s.turns := rfl
@[simp] theorem State.withNext_draws (t : HostTxn) (s : State) : (s.withNext t).draws = s.draws := rfl

@[simp] theorem resetEvent_block (s : State) : (resetEvent s).block = .reset := rfl
@[simp] theorem resetEvent_params (s : State) : (resetEvent s).params = s.params := rfl
@[simp] theorem resetEvent_host (s : State) : (resetEvent s).host = s.host := rfl
@[simp] theorem resetEvent_turns (s : State) : (resetEvent s).turns = s.turns := rfl
@[simp] theorem resetEvent_draws (s : State) : (resetEvent s).draws = s.draws := rfl

@[simp] theorem blockStep_block (s : State) : (blockStep s).block = (completeCommand s.params s.block s.draws).1 := rfl
@[simp] theorem blockStep_params (s : State) : (blockStep s).params = s.params := rfl
@[simp] theorem blockStep_host (s : State) : (blockStep s).host = s.host := rfl
@[simp] theorem blockStep_turns (s : State) : (blockStep s).turns = s.turns := rfl
@[simp] theorem blockStep_draws (s : State) : (blockStep s).draws = (completeCommand s.params s.block s.draws).2 := rfl

end Sys2Proof.Machine
end

