-- ==== Sys2Proof/Laws/Ops.lean ====
section
/-! SUPPORT. What each shared operation can do: reads and draws, the answers to a host transaction, and how completions end. -/

namespace Sys2Proof.Machine

/-! ### Reads and draws -/

theorem rd_written {m : Memory} {i : Nat} {v : Byte} (h : m.cell i = some v) (d : Nat) : rd m i d = (v, d) := by
  simp [rd, h]

theorem rd_unwritten {m : Memory} {i : Nat} (h : m.cell i = none) (d : Nat) : rd m i d = (Config.draw8 d, d + 1) := by
  simp [rd, h, draw8]

theorem rdDst_busy {b : BlockState} (h : b.busy = true) (i d : Nat) : rdDst b i d = (Config.draw8 d, d + 1) := by
  simp [rdDst, h, draw8]

theorem rdDst_idle {b : BlockState} (h : b.busy = false) (i d : Nat) : rdDst b i d = rd b.dst i d := by
  simp [rdDst, h]

@[simp] theorem rdRange_zero (m : Memory) (i d : Nat) : rdRange m i 0 d = ([], d) := rfl

theorem rdRange_succ (m : Memory) (i n d : Nat) :
    rdRange m i (n + 1) d =
      ((rd m i d).1 :: (rdRange m (i + 1) n (rd m i d).2).1, (rdRange m (i + 1) n (rd m i d).2).2) := rfl

@[simp] theorem rdRange_length (n : Nat) (m : Memory) (i d : Nat) : (rdRange m i n d).1.length = n := by
  induction n generalizing i d with
  | zero => rfl
  | succ n ih => simp [rdRange_succ, ih]

/-- A written cell of the range is read as it is. -/
theorem rdRange_getElem?_written (n : Nat) (m : Memory) (i d k : Nat) (hk : k < n) (v : Byte)
    (h : m.cell (i + k) = some v) : (rdRange m i n d).1[k]? = some v := by
  induction n generalizing i d k with
  | zero => omega
  | succ n ih =>
    rw [rdRange_succ]
    cases k with
    | zero => simp [rd_written (v := v) (by simpa using h)]
    | succ k =>
      rw [List.getElem?_cons_succ]
      exact ih (i + 1) _ k (by omega) (by rw [← h]; congr 1; omega)

/-- A range that is wholly written is read as it is, and takes no draw. -/
theorem rdRange_written (vs : List Byte) (m : Memory) (i d : Nat)
    (h : ∀ k (hk : k < vs.length), m.cell (i + k) = some vs[k]) : rdRange m i vs.length d = (vs, d) := by
  induction vs generalizing i d with
  | nil => rfl
  | cons v vs ih =>
    have hv : m.cell i = some v := h 0 (by simp)
    have htail : ∀ k (hk : k < vs.length), m.cell (i + 1 + k) = some vs[k] := by
      intro k hk
      rw [Nat.add_assoc, Nat.add_comm 1 k]
      exact h (k + 1) (by simp; omega)
    rw [List.length_cons, rdRange_succ, rd_written hv, ih (i + 1) d htail]

/-- Every unwritten cell of the range is a draw of its own, numbered from the count before the read to the count after it (R40). -/
theorem rdRange_draws (n : Nat) (m : Memory) (i d : Nat) :
    d ≤ (rdRange m i n d).2 ∧ ∃ e : Nat → Nat,
      (∀ k, k < n → m.cell (i + k) = none →
        d ≤ e k ∧ e k < (rdRange m i n d).2 ∧ (rdRange m i n d).1[k]? = some (Config.draw8 (e k))) ∧
      (∀ k l, k < n → l < n → m.cell (i + k) = none → m.cell (i + l) = none → e k = e l → k = l) := by
  induction n generalizing i d with
  | zero => exact ⟨Nat.le_refl d, fun _ => 0, fun k hk => absurd hk (Nat.not_lt_zero k), fun k _ hk => absurd hk (Nat.not_lt_zero k)⟩
  | succ n ih =>
    obtain ⟨hle, e, he, hinj⟩ := ih (i + 1) (rd m i d).2
    have hcell : ∀ k, m.cell (i + 1 + k) = m.cell (i + (k + 1)) := fun k => by congr 1; omega
    simp only [hcell] at he hinj
    have hfirst : d ≤ (rd m i d).2 ∧ (m.cell i = none → (rd m i d).2 = d + 1 ∧ (rd m i d).1 = Config.draw8 d) := by
      cases h : m.cell i with
      | none => simp [rd_unwritten h]
      | some v => simp [rd_written h]
    rw [rdRange_succ]
    refine ⟨by simp only []; omega, fun k => if k = 0 then d else e (k - 1), ?_, ?_⟩
    · intro k hk hc
      cases k with
      | zero =>
        have := hfirst.2 hc
        refine ⟨Nat.le_refl d, ?_, ?_⟩
        · show d < (rdRange m (i + 1) n (rd m i d).2).2
          omega
        · simp [this.2]
      | succ k =>
        obtain ⟨h1, h2, h3⟩ := he k (by omega) hc
        exact ⟨by simp; omega, by simpa using h2, by simpa using h3⟩
    · intro k l hk hl hck hcl hkl
      cases k with
      | zero =>
        cases l with
        | zero => rfl
        | succ l =>
          have := (he l (by omega) hcl).1
          have := (hfirst.2 hck).1
          simp at hkl
          omega
      | succ k =>
        cases l with
        | zero =>
          have := (he k (by omega) hck).1
          have := (hfirst.2 hcl).1
          simp at hkl
          omega
        | succ l =>
          have := hinj k l (by omega) (by omega) hck hcl (by simpa using hkl)
          omega

/-- Two buffers with the same cells in a range are read alike there. -/
theorem rdRange_congr (n : Nat) (m m' : Memory) (i d : Nat) (h : ∀ k, k < n → m.cell (i + k) = m'.cell (i + k)) :
    rdRange m i n d = rdRange m' i n d := by
  induction n generalizing i d with
  | zero => rfl
  | succ n ih =>
    have h0 : rd m i d = rd m' i d := by simp [rd, show m.cell i = m'.cell i by simpa using h 0 (by omega)]
    have ht := fun e => ih (i + 1) e (fun k hk => by
      have := h (k + 1) (by omega)
      rwa [← Nat.add_assoc, Nat.add_right_comm] at this)
    rw [rdRange_succ, rdRange_succ, h0, ht]

/-! ### Answers -/

theorem answerRead_eq (r : Word × Nat) (s : State) :
    answerRead r s = .next { s with host := s.host.answerRead r.1, draws := r.2 } := rfl

theorem answerWrite_idle {f : BlockState → BlockState} {s : State} (h : s.block.busy = false) :
    answerWrite f s = .next { s with block := f s.block, host := s.host.answerWrite } := by
  simp [answerWrite, BlockState.writeUnlessBusy, h]

theorem answerWrite_busy {f : BlockState → BlockState} {s : State} (h : s.block.busy = true) :
    answerWrite f s = .next { s with block := s.block.setOvr, host := s.host.answerWrite } := by
  simp [answerWrite, BlockState.writeUnlessBusy, h]

theorem busError_eq (s : State) : busError s = .next { s with host := s.host.busError } := rfl

/-! ### Completions -/

/-- Every way an encode command can end (R131). -/
theorem completeEncode_cases (p : Config.Params) (a : Alphabet) (b : BlockState) (d : Nat) :
    (p.srcDepth < b.srcLen.toNat ∧ completeEncode p a b d = (b.opError .lenRange 0, d)) ∨
    (b.srcLen.toNat ≤ p.srcDepth ∧ p.dstDepth < encodedLength b.srcLen.toNat ∧
      completeEncode p a b d = (b.opError .dstOverflow 0, d)) ∨
    (b.srcLen.toNat ≤ p.srcDepth ∧ encodedLength b.srcLen.toNat ≤ p.dstDepth ∧
      completeEncode p a b d =
        (b.succeed (encodeText a (rdRange b.src 0 b.srcLen.toNat d).1), (rdRange b.src 0 b.srcLen.toNat d).2)) := by
  unfold completeEncode
  by_cases h1 : b.srcLen.toNat > p.srcDepth
  · exact .inl ⟨h1, by simp [h1]⟩
  · by_cases h2 : encodedLength b.srcLen.toNat > p.dstDepth
    · exact .inr (.inl ⟨by omega, h2, by simp [h1, h2]⟩)
    · exact .inr (.inr ⟨by omega, by omega, by simp [h1, h2]⟩)

/-- Every way a decode command can end (R167). -/
theorem completeDecode_cases (p : Config.Params) (a : Alphabet) (b : BlockState) (d : Nat) :
    (p.srcDepth < b.srcLen.toNat ∧ completeDecode p a b d = (b.opError .lenRange 0, d)) ∨
    (b.srcLen.toNat ≤ p.srcDepth ∧ ∃ code i, validate a (rdRange b.src 0 b.srcLen.toNat d).1 = .fail code i ∧
      completeDecode p a b d = (b.opError code i, (rdRange b.src 0 b.srcLen.toNat d).2)) ∨
    (b.srcLen.toNat ≤ p.srcDepth ∧ ∃ k, validate a (rdRange b.src 0 b.srcLen.toNat d).1 = .ok k ∧
      p.dstDepth < decodedLength b.srcLen.toNat k ∧
      completeDecode p a b d = (b.opError .dstOverflow 0, (rdRange b.src 0 b.srcLen.toNat d).2)) ∨
    (b.srcLen.toNat ≤ p.srcDepth ∧ ∃ k, validate a (rdRange b.src 0 b.srcLen.toNat d).1 = .ok k ∧
      decodedLength b.srcLen.toNat k ≤ p.dstDepth ∧
      completeDecode p a b d =
        (b.succeed (decodeText a (rdRange b.src 0 b.srcLen.toNat d).1 k), (rdRange b.src 0 b.srcLen.toNat d).2)) := by
  unfold completeDecode
  by_cases h1 : b.srcLen.toNat > p.srcDepth
  · exact .inl ⟨h1, by simp [h1]⟩
  · cases h2 : validate a (rdRange b.src 0 b.srcLen.toNat d).1 with
    | fail code i => exact .inr (.inl ⟨by omega, code, i, rfl, by simp [h1, h2]⟩)
    | ok k =>
      by_cases h3 : decodedLength b.srcLen.toNat k > p.dstDepth
      · exact .inr (.inr (.inl ⟨by omega, k, rfl, h3, by simp [h1, h2, h3]⟩))
      · exact .inr (.inr (.inr ⟨by omega, k, rfl, by omega, by simp [h1, h2, h3]⟩))

end Sys2Proof.Machine
end

