-- ==== Sys2Proof/Laws/Base64.lean ====
section
/-! SUPPORT. Small facts of the transformations: group lengths, the padding character, and where a scan can fail. -/

namespace Sys2Proof.Machine

@[simp] theorem encodeGroup_length (a : Alphabet) (b0 b1 b2 : Byte) (k : Nat) : (encodeGroup a b0 b1 b2 k).length = 4 := rfl

@[simp] theorem decodeGroup_length (a : Alphabet) (c0 c1 c2 c3 : Byte) : (decodeGroup a c0 c1 c2 c3).length = 3 := rfl

theorem encodeText_three (a : Alphabet) (b0 b1 b2 : Byte) (rest : List Byte) :
    encodeText a (b0 :: b1 :: b2 :: rest) = encodeGroup a b0 b1 b2 3 ++ encodeText a rest := rfl

theorem decodeGroups_four (a : Alphabet) (c0 c1 c2 c3 : Byte) (rest : List Byte) :
    decodeGroups a (c0 :: c1 :: c2 :: c3 :: rest) = decodeGroup a c0 c1 c2 c3 ++ decodeGroups a rest := rfl

/-- Four characters give three bytes (R157); a trailing part of a group gives none. -/
theorem decodeGroups_length (a : Alphabet) (t : List Byte) : (decodeGroups a t).length = t.length / 4 * 3 := by
  induction t using decodeGroups.induct with
  | case1 c0 c1 c2 c3 rest ih =>
    simp only [decodeGroups, List.length_append, decodeGroup_length, ih, List.length_cons]
    omega
  | case2 t h =>
    match t, h with
    | [], _ | [_], _ | [_, _], _ | [_, _, _], _ => simp [decodeGroups]
    | c0 :: c1 :: c2 :: c3 :: rest, h => exact absurd rfl (h c0 c1 c2 c3 rest)

/-- `=` is the padding character under both alphabets (R92). -/
@[simp] theorem lookup_pad (a : Alphabet) : lookup a pad = .padc := by cases a <;> decide

/-- No alphabet character is `=` (R100). -/
theorem alpha_ne_pad (a : Alphabet) (i : Sextet) : alpha a i ≠ pad := by
  cases a <;> revert i <;> decide

theorem scan_cons (a : Alphabet) (n p i : Nat) (c : Byte) (cs : List Byte) :
    scan a n p i (c :: cs) =
      if lookup a c = .invalid then .fail .badChar i
      else if c = pad ∧ i < n - p then .fail .badPad i
      else scan a n p (i + 1) cs := rfl

/-- A scan that passes answers the padding count it was given. -/
theorem scan_ok {a : Alphabet} {n p i k : Nat} {t : List Byte} (h : scan a n p i t = .ok k) : k = p := by
  induction t generalizing i with
  | nil => exact (Verdict.ok.inj h).symm
  | cons c cs ih =>
    rw [scan_cons] at h
    split at h
    · cases h
    · split at h
      · cases h
      · exact ih h

/-- A scan fails only with BAD_CHAR or BAD_PAD, at a position it visits (R155). -/
theorem scan_fail {a : Alphabet} {n p i k : Nat} {code : ErrCode} {t : List Byte} (h : scan a n p i t = .fail code k) :
    (code = .badChar ∨ code = .badPad) ∧ i ≤ k ∧ k < i + t.length := by
  induction t generalizing i with
  | nil => cases h
  | cons c cs ih =>
    rw [scan_cons] at h
    split at h
    · cases h
      simp
    · split at h
      · cases h
        simp
      · have := ih h
        simp only [List.length_cons]
        exact ⟨this.1, by omega, by omega⟩

/-- An accepted padding count is at most 2 (R152). -/
theorem validate_ok_le_two {a : Alphabet} {t : List Byte} {k : Nat} (h : validate a t = .ok k) : k ≤ 2 := by
  unfold validate at h
  split at h
  · cases h
  · rw [scan_ok h]
    omega

end Sys2Proof.Machine
end

