-- ==== Sys2Proof/Laws/Decode.lean ====
section
/-! SUPPORT. What the decoder answers, said once. -/

namespace Sys2Proof

@[simp] theorem decode_cmd (w : Word) : decode (.cmd w) = (decodeCmd w).map Command.instr := rfl

@[simp] theorem decode_txn (t : HostTxn) : decode (.txn t) = .ok (decodeTxn t) := rfl

/-- Only the three low bits of a command word may be set (R94). -/
theorem cmdRsvd_eq_zero (w : Word) : cmdRsvd w = 0 ↔ w.toNat < 8 := by
  have := w.isLt
  rw [← BitVec.toNat_inj]
  simp [cmdRsvd, BitVec.extractLsb'_toNat, Nat.shiftRight_eq_div_pow]
  omega

/-- A word with a reserved bit set is no command. -/
theorem decodeCmd_large {w : Word} (h : 8 ≤ w.toNat) : decodeCmd w = .error .rsvdNotZero := by
  rw [decodeCmd, if_pos]
  rw [Ne, cmdRsvd_eq_zero]
  omega

/-- The words below 8. -/
theorem word_lt_eight {w : Word} (h : w.toNat < 8) : w = 0 ∨ w = 1 ∨ w = 2 ∨ w = 3 ∨ w = 4 ∨ w = 5 ∨ w = 6 ∨ w = 7 := by
  simp only [← BitVec.toNat_inj]
  simp
  omega

/-- The six command words, each with its command (R93). -/
theorem decodeCmd_ok {w : Word} {c : Command} (h : decodeCmd w = .ok c) :
    (c = .nop ∧ w = 0) ∨ (c = .enc .std ∧ w = 1) ∨ (c = .dec .std ∧ w = 2) ∨ (c = .clrstat ∧ w = 3) ∨
    (c = .enc .url ∧ w = 5) ∨ (c = .dec .url ∧ w = 6) := by
  by_cases hw : w.toNat < 8
  · obtain rfl | rfl | rfl | rfl | rfl | rfl | rfl | rfl := word_lt_eight hw <;> cases h <;> decide
  · rw [decodeCmd_large (by omega)] at h
    cases h

/-- A transaction record is no command's row. -/
theorem decodeTxn_ne_command (t : HostTxn) (c : Command) : decodeTxn t ≠ c.instr := by
  unfold decodeTxn
  obtain _ | _ | (_ | _) | (_ | _) := c <;> (split; · simp [Command.instr]) <;> (split; · simp [Command.instr]) <;>
    split <;> simp [Command.instr]

end Sys2Proof
end

