-- ==== Sys2Proof/Laws/Operands.lean ====
section
/-! SUPPORT. The windows as arithmetic, and the byte lanes of a word. -/

namespace Sys2Proof.Machine

theorem inSrc_iff (p : Config.Params) (off : Word) {w : Nat} (hw : 1 ≤ w) :
    inSrc p off w = true ↔ 0x10000 ≤ off.toNat ∧ off.toNat + w ≤ 0x10000 + p.srcDepth := by
  unfold inSrc
  rw [Bool.and_eq_true, decide_eq_true_iff, decide_eq_true_iff]
  unfold srcBase
  omega

theorem inDst_iff (p : Config.Params) (off : Word) {w : Nat} (hw : 1 ≤ w) :
    inDst p off w = true ↔ 0x20000 ≤ off.toNat ∧ off.toNat + w ≤ 0x20000 + p.dstDepth := by
  unfold inDst
  rw [Bool.and_eq_true, decide_eq_true_iff, decide_eq_true_iff]
  unfold dstBase
  omega

theorem aligned_iff (off : Word) : aligned off = true ↔ off.toNat % 4 = 0 := by simp [aligned]

/-- `le32` as the number R63 gives it. -/
theorem le32_toNat (x0 x1 x2 x3 : Byte) :
    (le32 x0 x1 x2 x3).toNat = x0.toNat + x1.toNat * 2 ^ 8 + x2.toNat * 2 ^ 16 + x3.toNat * 2 ^ 24 := by
  have := x0.isLt
  have := x1.isLt
  have := x2.isLt
  simp only [le32, BitVec.toNat_append]
  rw [← Nat.shiftLeft_add_eq_or_of_lt (by omega), ← Nat.shiftLeft_add_eq_or_of_lt (by omega),
    ← Nat.shiftLeft_add_eq_or_of_lt (by omega)]
  simp only [Nat.shiftLeft_eq]
  omega

/-- The lanes of a word built by `le32` are the bytes it was built from. -/
theorem byteLanes_le32 (x0 x1 x2 x3 : Byte) : byteLanes (le32 x0 x1 x2 x3) = [x0, x1, x2, x3] := by
  have := x0.isLt
  have := x1.isLt
  have := x2.isLt
  have := x3.isLt
  simp only [byteLanes, byteLane, List.cons.injEq, ← BitVec.toNat_inj, BitVec.extractLsb'_toNat, le32_toNat,
    Nat.shiftRight_eq_div_pow, Nat.reduceMul, Nat.reducePow, and_true]
  omega

end Sys2Proof.Machine
end

