-- ==== Sys2Proof/Laws/Exec.lean ====
section
/-! SUPPORT. What executing an instruction can do: it reads, it writes through the busy hazard, or it is a bus error. -/

namespace Sys2Proof.Machine

/-- The effect of a command on the idle block (R190, R192, R195). -/
def commandEffect : Command → BlockState → BlockState
  | .nop => fun b => b
  | .clrstat => BlockState.clearStatus
  | .enc a => BlockState.accept false a
  | .dec a => BlockState.accept true a

/-- The permitted host writes (R62), each with its effect on the idle block. -/
inductive HostWrite (p : Config.Params) : Instr → (BlockState → BlockState) → Prop where
  | command (c : Command) : HostWrite p c.instr (commandEffect c)
  | cmdWord (w : Word) (c : Command) (h : decodeCmd w = .ok c) : HostWrite p (.w32 offCmd w) (commandEffect c)
  | reserved (w : Word) (r : DecodeReject) (h : decodeCmd w = .error r) :
      HostWrite p (.w32 offCmd w) (BlockState.opError .badCmd 0)
  | srcLen (v : Word) : HostWrite p (.w32 offSrcLen v) (BlockState.setSrcLen v)
  | srcByte (off data : Word) (h : inSrc p off 1 = true) :
      HostWrite p (.w8 off data) (BlockState.writeSrc (srcPos off) [byteLane data 0])
  | srcWord (off data : Word) (ha : aligned off = true) (h : inSrc p off 4 = true) :
      HostWrite p (.w32 off data) (BlockState.writeSrc (srcPos off) (byteLanes data))

/-- A command's row is executed through the busy hazard with its own effect. -/
theorem exec_command (c : Command) (s : State) : exec c.instr s = answerWrite (commandEffect c) s := by
  cases c with
  | nop => rfl
  | clrstat => rfl
  | enc a => cases a <;> rfl
  | dec a => cases a <;> rfl

/-- A W32 to CMD with a command's word is that command (R198). -/
theorem cmdWrite_command {w : Word} {c : Command} (h : decodeCmd w = .ok c) (s : State) :
    cmdWrite w s = answerWrite (commandEffect c) s := by
  unfold cmdWrite
  rw [h]
  cases c with
  | nop => rfl
  | clrstat => rfl
  | enc a => cases a <;> rfl
  | dec a => cases a <;> rfl

/-- A W32 to CMD with a reserved word (R194). -/
theorem cmdWrite_reserved {w : Word} {r : DecodeReject} (h : decodeCmd w = .error r) (s : State) :
    cmdWrite w s = answerWrite (BlockState.opError .badCmd 0) s := by
  unfold cmdWrite
  rw [h]
  rfl

/-- Every execution is a read, a bus error or a permitted write. -/
theorem exec_cases (i : Instr) (s : State) :
    (∃ r, exec i s = answerRead r s) ∨ exec i s = busError s ∨
      ∃ f, HostWrite s.params i f ∧ exec i s = answerWrite f s := by
  cases i with
  | nop => exact .inr (.inr ⟨_, .command .nop, exec_command .nop s⟩)
  | encStd => exact .inr (.inr ⟨_, .command (.enc .std), exec_command (.enc .std) s⟩)
  | decStd => exact .inr (.inr ⟨_, .command (.dec .std), exec_command (.dec .std) s⟩)
  | clrstat => exact .inr (.inr ⟨_, .command .clrstat, exec_command .clrstat s⟩)
  | encUrl => exact .inr (.inr ⟨_, .command (.enc .url), exec_command (.enc .url) s⟩)
  | decUrl => exact .inr (.inr ⟨_, .command (.dec .url), exec_command (.dec .url) s⟩)
  | r8 off =>
    simp only [exec, execR8]
    split
    · exact .inl ⟨_, rfl⟩
    · exact .inr (.inl rfl)
  | r32 off =>
    simp only [exec, execR32]
    split
    · split
      · exact .inl ⟨_, rfl⟩
      · exact .inr (.inl rfl)
    · exact .inr (.inl rfl)
  | w8 off data =>
    simp only [exec, execW8]
    split
    · exact .inr (.inr ⟨_, .srcByte off data ‹_›, rfl⟩)
    · exact .inr (.inl rfl)
  | w32 off data =>
    simp only [exec, execW32]
    split
    · split
      · subst_vars
        cases h : decodeCmd data with
        | ok c => exact .inr (.inr ⟨_, .cmdWord data c h, cmdWrite_command h s⟩)
        | error r => exact .inr (.inr ⟨_, .reserved data r h, cmdWrite_reserved h s⟩)
      · split
        · subst_vars
          exact .inr (.inr ⟨_, .srcLen data, rfl⟩)
        · split
          · exact .inr (.inr ⟨_, .srcWord off data ‹aligned off = true› ‹_›, rfl⟩)
          · exact .inr (.inl rfl)
    · exact .inr (.inl rfl)

/-- A permitted write is executed through the busy hazard with its effect. -/
theorem exec_hostWrite {i : Instr} {f : BlockState → BlockState} {s : State} (h : HostWrite s.params i f) :
    exec i s = answerWrite f s := by
  cases h with
  | command c => exact exec_command c s
  | cmdWord w c h => exact cmdWrite_command h s
  | reserved w r h => exact cmdWrite_reserved h s
  | srcLen v => rfl
  | srcByte off data h => simp only [exec, execW8, h, if_true]
  | srcWord off data ha h =>
    have hoff : 0x10000 ≤ off.toNat := ((inSrc_iff _ _ (by omega : 1 ≤ 4)).1 h).1
    have hne : ∀ k : Word, k.toNat < 0x10000 → off ≠ k := by
      rintro k hk rfl
      omega
    simp only [exec, execW32]
    rw [if_pos ha, if_neg (hne _ (by decide)), if_neg (hne _ (by decide)), if_pos h]

/-- Every execution answers a next state, and changes neither the parameters, the schedule nor the program. -/
theorem exec_next (i : Instr) (s : State) :
    ∃ t, exec i s = .next t ∧ t.params = s.params ∧ t.turns = s.turns ∧ t.host.program = s.host.program := by
  obtain ⟨r, h⟩ | h | ⟨f, -, h⟩ := exec_cases i s <;> exact ⟨_, h, rfl, rfl, rfl⟩

end Sys2Proof.Machine
end

