-- ==== Sys2Proof/Laws/PerInstr.lean ====
section
/-! SUPPORT. The per-instruction family Delivery: how each instruction reaches the block. -/

namespace Sys2Proof.Laws.Delivery

/-- An instruction's encoding is delivered by a transaction whose KIND is a write of a word for a command, to CMD, and the row's
own KIND otherwise (R93, R96). -/
def Statement (i : Instr) : Prop :=
  (Machine.deliver (encode i)).kind =
      (match i with | .r8 _ => 0b00 | .r32 _ => 0b01 | .w8 _ _ => 0b10 | _ => 0b11) ∧
    (match encode i with | .cmd w => decodeTxn (Machine.deliver (encode i)) = .w32 Machine.offCmd w
                         | .txn t => Machine.deliver (encode i) = t)

theorem nop : Statement .nop := ⟨rfl, rfl⟩
theorem encStd : Statement .encStd := ⟨rfl, rfl⟩
theorem decStd : Statement .decStd := ⟨rfl, rfl⟩
theorem clrstat : Statement .clrstat := ⟨rfl, rfl⟩
theorem encUrl : Statement .encUrl := ⟨rfl, rfl⟩
theorem decUrl : Statement .decUrl := ⟨rfl, rfl⟩
theorem r8 (off : Word) : Statement (.r8 off) := ⟨rfl, rfl⟩
theorem r32 (off : Word) : Statement (.r32 off) := ⟨rfl, rfl⟩
theorem w8 (off data : Word) : Statement (.w8 off data) := ⟨rfl, rfl⟩
theorem w32 (off data : Word) : Statement (.w32 off data) := ⟨rfl, rfl⟩

end Sys2Proof.Laws.Delivery
end

