-- ==== Sys2Proof/Laws/Step.lean ====
section
/-! SUPPORT. What a step can do, said once. -/

namespace Sys2Proof.Machine

/-- The block moves only while BUSY = 1 (R196). -/
theorem busy_of_mover_block {s : State} (h : s.mover = .block) : s.block.busy = true := by
  unfold State.mover at h
  split at h
  · cases h
  · split at h
    · exact (‹_ ∧ _› : _ ∧ _).2
    · cases h
  · split at h
    · assumption
    · cases h
  · split at h
    · assumption
    · cases h

/-- A step in which the block moves is its completion. -/
theorem step_block {s : State} (hp : programWf s.host.program = true) (hm : s.mover = .block) :
    step s = .next (blockStep s.takeTurn) := by
  unfold step moveAgent
  rw [if_pos hp, hm]

/-- A step in which the host moves. -/
theorem step_host {s : State} (hp : programWf s.host.program = true) (hm : s.mover = .host) :
    step s = hostStep s.takeTurn := by
  unfold step moveAgent
  rw [if_pos hp, hm]

/-- A reset turn. -/
theorem step_reset {s : State} (hp : programWf s.host.program = true) (hm : s.mover = .reset) :
    step s = .next (resetEvent s.takeTurn) := by
  unfold step moveAgent
  rw [if_pos hp, hm]

/-- A running host that stands at a transaction executes it. -/
theorem hostStep_txn {s : State} {x : HostTxn} (hs : s.host.status = .running) (hf : s.host.fetch = .txn x) :
    hostStep s = exec (decodeTxn x) s := by
  unfold hostStep
  rw [hs]
  simp only []
  rw [hf]

/-- A completion ends in the error outcome or in success (R196). -/
theorem completeCommand_cases (p : Config.Params) (b : BlockState) (d : Nat) :
    (∃ code i, (completeCommand p b d).1 = b.opError code i) ∨ (∃ out, (completeCommand p b d).1 = b.succeed out) := by
  unfold completeCommand
  split
  · obtain ⟨-, h⟩ | ⟨-, code, i, -, h⟩ | ⟨-, k, -, -, h⟩ | ⟨-, k, -, -, h⟩ :=
      completeDecode_cases p (alphabetOfLatch b.alphL) b d
    · exact .inl ⟨_, _, by rw [h]⟩
    · exact .inl ⟨_, _, by rw [h]⟩
    · exact .inl ⟨_, _, by rw [h]⟩
    · exact .inr ⟨_, by rw [h]⟩
  · obtain ⟨-, h⟩ | ⟨-, -, h⟩ | ⟨-, -, h⟩ := completeEncode_cases p (alphabetOfLatch b.alphL) b d
    · exact .inl ⟨_, _, by rw [h]⟩
    · exact .inl ⟨_, _, by rw [h]⟩
    · exact .inr ⟨_, by rw [h]⟩

/-- A run's first step. -/
theorem core_run_next {k : Nat} {s t : State} (h : step s = .next t) :
    Host.Core.run Sys2Proof.core (k + 1) s = Host.Core.run Sys2Proof.core k t := by
  have h' : Sys2Proof.core.step s = .next t := h
  simp only [Host.Core.run, h']

/-- A step to a next state runs a well-formed program and is a reset, a completion or a step of the host. -/
theorem step_cases {s t : State} (h : step s = .next t) :
    programWf s.host.program = true ∧
    ((s.mover = .reset ∧ t = resetEvent s.takeTurn) ∨
     (s.mover = .block ∧ s.block.busy = true ∧ t = blockStep s.takeTurn) ∨
     (s.mover = .host ∧ hostStep s.takeTurn = .next t)) := by
  unfold step at h
  split at h
  · refine ⟨‹_›, ?_⟩
    unfold moveAgent at h
    split at h
    · exact .inl ⟨‹_›, by cases h; rfl⟩
    · exact .inr (.inl ⟨‹_›, busy_of_mover_block ‹_›, by cases h; rfl⟩)
    · exact .inr (.inr ⟨‹_›, h⟩)
  · cases h

/-- A step of the host to a next state: it stays halted, executes a transaction, branches or halts. -/
theorem hostStep_cases {s t : State} (h : hostStep s = .next t) :
    (s.host.status = .halted ∧ t = s) ∨
    (s.host.status = .running ∧
      ((∃ x, s.host.fetch = .txn x ∧ exec (decodeTxn x) s = .next t) ∨
       (∃ mask k, s.host.fetch = .bnz mask k ∧ t = { s with host := s.host.bnz mask k }) ∨
       (∃ mask k, s.host.fetch = .bz mask k ∧ t = { s with host := s.host.bz mask k }) ∨
       (s.host.fetch = .halt ∧ t = { s with host := s.host.halt }))) := by
  unfold hostStep at h
  split at h
  · cases h
  · exact .inl ⟨‹_›, by cases h; rfl⟩
  · refine .inr ⟨‹_›, ?_⟩
    split at h
    · exact .inl ⟨_, ‹_›, h⟩
    · exact .inr (.inl ⟨_, _, ‹_›, by cases h; rfl⟩)
    · exact .inr (.inr (.inl ⟨_, _, ‹_›, by cases h; rfl⟩))
    · exact .inr (.inr (.inr ⟨‹_›, by cases h; rfl⟩))

/-- A branch changes the pc, or faults the host before any read (R108). -/
theorem HostAgent.branch_cases (taken : Word → Bool) (k : Nat) (h : HostAgent) :
    (h.lastRead = none ∧ h.branch taken k = h.fault) ∨
    (∃ v, h.lastRead = some v ∧ h.branch taken k = { h with pc := if taken v then k else h.pc + 1 }) := by
  unfold HostAgent.branch
  cases h.lastRead with
  | none => exact .inl ⟨rfl, rfl⟩
  | some v => exact .inr ⟨v, rfl, rfl⟩

@[simp] theorem HostAgent.branch_program (taken : Word → Bool) (k : Nat) (h : HostAgent) :
    (h.branch taken k).program = h.program := by
  obtain ⟨-, e⟩ | ⟨v, -, e⟩ := HostAgent.branch_cases taken k h
  · simp [e]
  · simp [e]

/-- No step changes the parameters (R35, R36) or the host's program. -/
theorem step_keeps_params_program {s t : State} (h : step s = .next t) :
    t.params = s.params ∧ t.host.program = s.host.program := by
  obtain ⟨-, ⟨-, rfl⟩ | ⟨-, -, rfl⟩ | ⟨-, h⟩⟩ := step_cases h
  · exact ⟨rfl, rfl⟩
  · exact ⟨rfl, rfl⟩
  · obtain ⟨-, rfl⟩ | ⟨-, ⟨x, -, hx⟩ | ⟨mask, k, -, rfl⟩ | ⟨mask, k, -, rfl⟩ | ⟨-, rfl⟩⟩ := hostStep_cases h
    · exact ⟨rfl, rfl⟩
    · obtain ⟨u, hu, hp, -, hprog⟩ := exec_next (decodeTxn x) s.takeTurn
      rw [hu] at hx
      cases hx
      exact ⟨hp, hprog⟩
    · exact ⟨rfl, HostAgent.branch_program _ _ _⟩
    · exact ⟨rfl, HostAgent.branch_program _ _ _⟩
    · exact ⟨rfl, rfl⟩

end Sys2Proof.Machine
end

