-- ==== Sys2Proof/Tests/Slice0.lean ====
section
/-! SUPPORT. The model's own tests. Expected values come from the spec: the vectors of 95_test_vectors.md, named by their row, and words
written out from the encodings of R93 and R96. Then, for every statement of Obligations.lean that has hypotheses, a witness that meets
them all. -/

namespace Sys2Proof.Tests

open Sys2Proof.Machine Sys2Proof.Claims

/-! ### Small states -/

/-- The machine after reset, with `bytes` in SRC from position 0 and SRC_LEN = `n`. -/
def loaded (bytes : List Byte) (n : Word) : State :=
  { State.reset with block := { BlockState.reset with src := Memory.writeAll [] 0 bytes, srcLen := n } }

/-- `s` with a data command accepted: BUSY = 1 and the latches set. -/
def running (op alph : Bool) (s : State) : State :=
  { s with block := { s.block with busy := true, opL := op, alphL := alph } }

/-- `s` with the host about to issue the transaction. -/
def issuing (t : HostTxn) (s : State) : State := { s with host := { s.host with program := [.txn t], pc := 0 }, turns := [.host] }

/-- `s` with a host program whose first statement is `st`. -/
def atStmt (st : Stmt) (s : State) : State := { s with host := { s.host with program := [st], pc := 0 }, turns := [.host] }

/-- The state a step leads to (`s` itself where it stops). -/
def stepTo (s : State) : State :=
  match step s with
  | .next t => t
  | .fault _ => s
  | .refused _ => s

/-- What an execution shows of the block: STATUS, DST_LEN, ERR_INDEX. -/
def shown (r : Result) : Option (Word × Word × Word) :=
  match r with
  | .next t => some (t.block.statusWord, t.block.dstLen, t.block.errIdx)
  | .fault _ => none
  | .refused _ => none

/-- The response an execution gives the host. -/
def answer (r : Result) : Option Response :=
  match r with
  | .next t => t.host.resp
  | .fault _ => none
  | .refused _ => none

/-- The listed cells of DST after an execution. -/
def dstOf (r : Result) : Option Memory :=
  match r with
  | .next t => some t.block.dst
  | .fault _ => none
  | .refused _ => none

def isRefused (r : Result) : Bool :=
  match r with
  | .next _ => false
  | .fault _ => false
  | .refused _ => true

/-! ### Well-formedness refuses ill-formed terms -/

theorem test_params_srcDepth_zero_refused : ¬ Config.Params.Wf ⟨0, 64⟩ := by decide

theorem test_params_srcDepth_too_large_refused : ¬ Config.Params.Wf ⟨65537, 64⟩ := by decide

theorem test_params_dstDepth_zero_refused : ¬ Config.Params.Wf ⟨64, 0⟩ := by decide

theorem test_params_dstDepth_too_large_refused : ¬ Config.Params.Wf ⟨64, 65537⟩ := by decide

theorem test_params_bounds_accepted : Config.Params.Wf ⟨1, 65536⟩ ∧ Config.Params.Wf ⟨65536, 1⟩ := by decide

theorem test_bnz_target_outside_refused : programWf [.bnz 0x1 1] = false := by decide

theorem test_bz_target_outside_refused : programWf [.halt, .bz 0x4 2] = false := by decide

theorem test_branch_target_inside_accepted : programWf [.halt, .bz 0x4 1, .bnz 0x1 0] = true := by decide

theorem test_step_refuses_ill_formed_program : isRefused (step (atStmt (.bnz 0x1 7) State.reset)) = true := by decide

theorem test_undefined_label_refused : assemble [.bnz 0x1 "L", .halt] = .error (.undefinedLabel "L") := by decide

theorem test_label_at_end_refused : assemble [.halt, .label "L"] = .error (.labelNamesNoStatement "L") := by decide

theorem test_duplicate_label_refused : assemble [.label "L", .halt, .label "L", .halt] = .error (.duplicateLabel "L") := by decide

/-! ### Decoding: RSVD is bits 31:3, URL bit 2, OP bits 1:0 (R90, R93) -/

theorem test_decode_nop : decodeTableWord 32 0b00000000000000000000000000000000 = some .nop := by decide
theorem test_decode_encStd : decodeTableWord 32 0b00000000000000000000000000000001 = some .encStd := by decide
theorem test_decode_decStd : decodeTableWord 32 0b00000000000000000000000000000010 = some .decStd := by decide
theorem test_decode_clrstat : decodeTableWord 32 0b00000000000000000000000000000011 = some .clrstat := by decide
theorem test_decode_encUrl : decodeTableWord 32 0b00000000000000000000000000000101 = some .encUrl := by decide
theorem test_decode_decUrl : decodeTableWord 32 0b00000000000000000000000000000110 = some .decUrl := by decide

/-- R94: the words rejected, each by its name. -/
theorem test_decode_rejects :
    decode (.cmd 0b00000000000000000000000000000100) = .error .nopWithUrl ∧
    decode (.cmd 0b00000000000000000000000000000111) = .error .clrstatWithUrl ∧
    decode (.cmd 0b00000000000000000000000000001000) = .error .rsvdNotZero ∧
    decode (.cmd 0b10000000000000000000000000000001) = .error .rsvdNotZero := by decide

/-- Records from the listings of 95_test_vectors.md §7: P2 pc 16, P1 pc 15, P1 pc 0, P3 pc 8. -/
theorem test_decode_r8 : decode (.txn ⟨0b00, 0x20000, 0⟩) = .ok (.r8 0x20000) := by decide
theorem test_decode_r32 : decode (.txn ⟨0b01, 0x00004, 0⟩) = .ok (.r32 0x00004) := by decide
theorem test_decode_w8 : decode (.txn ⟨0b10, 0x10000, 0x48⟩) = .ok (.w8 0x10000 0x48) := by decide
theorem test_decode_w32 : decode (.txn ⟨0b11, 0x10000, 0x5F5F2D2D⟩) = .ok (.w32 0x10000 0x5F5F2D2D) := by decide

/-- A record's bits as the model lays them out (log 8): DATA, OFF, KIND. -/
theorem test_decode_w32_bits :
    decodeTableWord 66 0b010111110101111100101101001011010000000000000001000000000000000011 = some (.w32 0x10000 0x5F5F2D2D) := by decide

/-- The table's rows give KIND alone: the operands are 0. -/
theorem test_decode_table_kinds :
    decodeTableWord 8 0b00 = some (.r8 0) ∧ decodeTableWord 8 0b01 = some (.r32 0) ∧
    decodeTableWord 8 0b10 = some (.w8 0 0) ∧ decodeTableWord 8 0b11 = some (.w32 0 0) := by decide

/-! ### The transformations (95_test_vectors.md §1 to §3) -/

theorem test_alphabet_std_in_order :
    (List.range 64).map (fun i => alpha .std (BitVec.ofNat 6 i)) =
      asciiBytes "ABCDEFGHIJKLMNOPQRSTUVWXYZabcdefghijklmnopqrstuvwxyz0123456789+/" := by decide

/-- S1, S4, S5, S6. -/
theorem test_encode_source_examples :
    encodeText .std (asciiBytes "Hello, World!") = asciiBytes "SGVsbG8sIFdvcmxkIQ==" ∧
    encodeText .std (asciiBytes "M") = asciiBytes "TQ==" ∧ encodeText .std (asciiBytes "Ma") = asciiBytes "TWE=" ∧
    encodeText .std (asciiBytes "Man") = asciiBytes "TWFu" := by decide

/-- E8, E9, E16 under both alphabets. -/
theorem test_encode_both_alphabets :
    encodeText .std [0xFB, 0xFF] = asciiBytes "+/8=" ∧ encodeText .url [0xFB, 0xFF] = asciiBytes "-_8=" ∧
    encodeText .std [0xFB, 0xEF, 0xFF] = asciiBytes "++//" ∧ encodeText .url [0xFB, 0xEF, 0xFF] = asciiBytes "--__" ∧
    encodeText .url [0x14, 0xFB, 0x9C, 0x03, 0xD9, 0x7E] = asciiBytes "FPucA9l-" := by decide

/-- D15. -/
theorem test_decode_text_source_example :
    validate .std (asciiBytes "SGVsbG8sIFdvcmxkIQ==") = .ok 2 ∧
    decodeText .std (asciiBytes "SGVsbG8sIFdvcmxkIQ==") 2 = asciiBytes "Hello, World!" := by decide

/-- D5, D6: non-zero discarded bits. -/
theorem test_decode_text_discarded_bits :
    validate .std (asciiBytes "TR==") = .ok 2 ∧ decodeText .std (asciiBytes "TR==") 2 = [0x4D] ∧
    validate .url (asciiBytes "TWF=") = .ok 1 ∧ decodeText .url (asciiBytes "TWF=") 1 = [0x4D, 0x61] := by decide

/-- D17 to D21, D26, D27. -/
theorem test_validate_bad_pad :
    validate .std (asciiBytes "TQ=A") = .fail .badPad 2 ∧ validate .std (asciiBytes "TQ==TQ==") = .fail .badPad 2 ∧
    validate .std (asciiBytes "A===") = .fail .badPad 1 ∧ validate .std (asciiBytes "====") = .fail .badPad 0 ∧
    validate .std (asciiBytes "=!==") = .fail .badPad 0 ∧ validate .std (asciiBytes "AB=C") = .fail .badPad 2 ∧
    validate .std (asciiBytes "Zm9=Zm9v") = .fail .badPad 3 := by decide

/-- D8, D9, D16, D22, D24, D29. -/
theorem test_validate_bad_char_and_length :
    validate .url (asciiBytes "////") = .fail .badChar 0 ∧ validate .std (asciiBytes "____") = .fail .badChar 0 ∧
    validate .std (asciiBytes "TQ=") = .fail .badLength 0 ∧ validate .std [0x54, 0x80, 0x3D, 0x3D] = .fail .badChar 1 ∧
    validate .url (asciiBytes "TW u") = .fail .badChar 2 ∧ validate .std (asciiBytes "AAA.") = .fail .badChar 3 := by decide

/-! ### Commands on CMD, one step each (95_test_vectors.md §5) -/

/-- K1. -/
theorem test_nop : shown (exec .nop State.reset) = some (0x0, 0, 0) := by decide

/-- K2: after D17. -/
theorem test_clrstat :
    shown (exec .clrstat { State.reset with block := { BlockState.reset with err := true, errcode := 5, errIdx := 2 } }) =
      some (0x0, 0, 0) := by decide

/-- K10: CLRSTAT while busy. -/
theorem test_clrstat_busy : shown (exec .clrstat (running false false State.reset)) = some (0x9, 0, 0) := by decide

/-- K9. -/
theorem test_encStd_accepted : shown (exec .encStd (loaded [0x41, 0x41, 0x41] 3)) = some (0x1, 0, 0) := by decide

/-- K3, K6, K7: reserved words. -/
theorem test_reserved_words :
    shown (exec (.w32 0x0 0x4) State.reset) = some (0x104, 0, 0) ∧
    shown (exec (.w32 0x0 0x80000001) State.reset) = some (0x104, 0, 0) ∧
    shown (exec (.w32 0x0 0xFFFFFFFF) State.reset) = some (0x104, 0, 0) := by decide

/-- The latches that each data command sets (R122, R123, R162, R163): OP_L, then ALPH_L. -/
theorem test_latches :
    ((exec .encUrl State.reset), (exec .decStd State.reset), (exec .decUrl State.reset)) =
      (.next (afterWrite State.reset { BlockState.reset with busy := true, alphL := true }),
       .next (afterWrite State.reset { BlockState.reset with busy := true, opL := true }),
       .next (afterWrite State.reset { BlockState.reset with busy := true, opL := true, alphL := true })) := rfl

/-! ### Completions, one step each -/

/-- E9 with ENC_URL: the text `--__`. -/
theorem test_complete_encUrl :
    shown (step (running false true (loaded [0xFB, 0xEF, 0xFF] 3))) = some (0x2, 4, 0) ∧
    dstOf (step (running false true (loaded [0xFB, 0xEF, 0xFF] 3))) = some [(0, 0x2D), (1, 0x2D), (2, 0x5F), (3, 0x5F)] := by decide

/-- D3 with DEC_STD. -/
theorem test_complete_decStd :
    shown (step (running true false (loaded (asciiBytes "TWE=") 4))) = some (0x2, 2, 0) ∧
    dstOf (step (running true false (loaded (asciiBytes "TWE=") 4))) = some [(0, 0x4D), (1, 0x61)] := by decide

/-- D17. -/
theorem test_complete_bad_pad : shown (step (running true false (loaded (asciiBytes "TQ=A") 4))) = some (0x504, 0, 2) := by decide

/-- W1, W2: LEN_RANGE before anything is read. -/
theorem test_complete_len_range :
    shown (step (running false false (loaded [] 65))) = some (0x204, 0, 0) ∧
    shown (step (running true false (loaded [] 0xFFFFFFFF))) = some (0x204, 0, 0) := by decide

/-- W4 and P5: DST_OVERFLOW with no SRC cell written. -/
theorem test_complete_dst_overflow : shown (step (running false false (loaded [] 49))) = some (0x604, 0, 0) := by decide

/-- W7, W8, W9 under TC2. -/
theorem test_complete_tc2 :
    shown (step { running true false (loaded (asciiBytes "TWFu") 4) with params := Config.tc2 }) = some (0x604, 0, 0) ∧
    shown (step { running true false (loaded (asciiBytes "TWE=") 4) with params := Config.tc2 }) = some (0x2, 2, 0) ∧
    shown (step { running true false (loaded (asciiBytes "TW!=") 4) with params := Config.tc2 }) = some (0x404, 0, 2) := by decide

/-- W6: BAD_LENGTH wins over BAD_CHAR. -/
theorem test_complete_bad_length : shown (step (running true false (loaded [0x21, 0x41, 0x41, 0x41, 0x41] 5))) = some (0x304, 0, 0) := by
  decide

/-- K13: the completion keeps OVR. -/
theorem test_complete_keeps_ovr :
    shown (step (running false false { loaded [0x41, 0x41, 0x41] 3 with
      block := { (loaded [0x41, 0x41, 0x41] 3).block with ovr := true } })) = some (0xA, 4, 0) := by decide

/-! ### Host access (95_test_vectors.md §6) -/

/-- The start state of §6, with the four cells that its rows read. -/
def sixA : State :=
  { State.reset with block := { BlockState.reset with src := [(0, 0x41), (60, 0x41), (61, 0x41), (62, 0x41), (63, 0x41)] } }

/-- H1, H13, and H11. -/
theorem test_r8 :
    answer (exec (.r8 0x00004) sixA) = some .busError ∧ answer (exec (.r8 0x1003F) sixA) = some (.okData 0x41) := by decide

/-- H15: an unwritten cell of DST is a draw. -/
theorem test_r8_unwritten : answer (exec (.r8 0x2003F) sixA) = some (.okData ((Config.draw8 0).setWidth 32)) := rfl

/-- H2, H5, H8, H10, H14, H17. -/
theorem test_r32_bus_errors :
    answer (exec (.r32 0x00006) sixA) = some .busError ∧ answer (exec (.r32 0x00000) sixA) = some .busError ∧
    answer (exec (.r32 0x0001C) sixA) = some .busError ∧ answer (exec (.r32 0x10040) sixA) = some .busError ∧
    answer (exec (.r32 0x20040) sixA) = some .busError ∧ answer (exec (.r32 0x30000) sixA) = some .busError := by decide

/-- H6, H7, H9, H21. -/
theorem test_r32_values :
    answer (exec (.r32 0x00014) sixA) = some (.okData 0x40) ∧ answer (exec (.r32 0x00018) sixA) = some (.okData 0x40) ∧
    answer (exec (.r32 0x1003C) sixA) = some (.okData 0x41414141) ∧ answer (exec (.r32 0x00008) sixA) = some (.okData 0x0) := by decide

/-- H4, H13: a W8 outside SRC. -/
theorem test_w8_bus_errors :
    answer (exec (.w8 0x20000 0) sixA) = some .busError ∧ answer (exec (.w8 0x00008 0) sixA) = some .busError := by decide

/-- K11 on the idle block: W8 SRC+0, 0x42 writes that cell. -/
theorem test_w8_writes :
    (match exec (.w8 0x10000 0xFFFFFF42) sixA with | .next t => t.block.src.cell 0 | .fault _ => none | .refused _ => none) =
      some 0x42 := by decide

/-- H3, H12, H16. -/
theorem test_w32_bus_errors :
    answer (exec (.w32 0x00004 0) sixA) = some .busError ∧ answer (exec (.w32 0x1003E 0) sixA) = some .busError ∧
    answer (exec (.w32 0x0000C 0) sixA) = some .busError := by decide

/-- H18: little-endian. -/
theorem test_w32_src :
    (match exec (.w32 0x10000 0x6E614D00) State.reset with | .next t => t.block.src | .fault _ => [] | .refused _ => []) =
      [(0, 0x00), (1, 0x4D), (2, 0x61), (3, 0x6E)] := by decide

/-! ### The host agent and the schedule -/

/-- P2's listing. -/
theorem test_assemble_p2 :
    assemble [.load "TQ=A", .run 0x2, .r32 0x4, .bz 0x4 "ok", .r32 0x10, .w8 0x10003 0x3D, .run 0x2, .label "ok", .r32 0xC,
      .r8 0x20000, .halt] =
    .ok [.txn ⟨0b10, 0x10000, 0x54⟩, .txn ⟨0b10, 0x10001, 0x51⟩, .txn ⟨0b10, 0x10002, 0x3D⟩, .txn ⟨0b10, 0x10003, 0x41⟩,
      .txn ⟨0b11, 0x8, 4⟩, .txn ⟨0b11, 0x0, 2⟩, .txn ⟨0b01, 0x4, 0⟩, .bnz 0x1 6, .txn ⟨0b01, 0x4, 0⟩, .bz 0x4 15,
      .txn ⟨0b01, 0x10, 0⟩, .txn ⟨0b10, 0x10003, 0x3D⟩, .txn ⟨0b11, 0x0, 2⟩, .txn ⟨0b01, 0x4, 0⟩, .bnz 0x1 13,
      .txn ⟨0b01, 0xC, 0⟩, .txn ⟨0b00, 0x20000, 0⟩, .halt] := by decide

/-- The end of P5: `R8 STATUS` answers BUS_ERROR and the host faults at its statement. -/
theorem test_bus_error_faults_host :
    (stepTo (issuing ⟨0b00, 0x4, 0⟩ State.reset)).host.status = .faulted 0 ∧
    (stepTo (issuing ⟨0b00, 0x4, 0⟩ State.reset)).block = BlockState.reset := by decide

/-- The machine after reset has no program: its host stops "as if at HALT" (R214). -/
theorem test_reset_step : (stepTo State.reset).host.status = .halted ∧ (stepTo State.reset).block = BlockState.reset := by decide

/-- P4's W8 before the completion, and after it. -/
theorem test_p4_orders :
    (stepTo (issuing ⟨0b10, 0x10001, 0x6E⟩ (running false false (loaded (asciiBytes "Ma") 2)))).block.statusWord = 0x9 ∧
    (stepTo (issuing ⟨0b10, 0x10001, 0x6E⟩ (loaded (asciiBytes "Ma") 2))).block.src.cell 1 = some 0x6E := by decide

/-- A placed instruction is the next thing that runs. -/
theorem test_withFetchWord :
    (stepTo (State.reset.withFetchWord 32 0x6)).block = { BlockState.reset with busy := true, opL := true, alphL := true } := by decide

/-! ### Witnesses: a state and operands meeting all the hypotheses of a statement together -/

/-- The machine after reset with a data command running. -/
def busyState : State := running false false State.reset

/-- SRC depth 64 and DST depth 64, all 64 cells of both buffers written. -/
def fullState : State :=
  { State.reset with block :=
    { BlockState.reset with src := Memory.writeAll [] 0 (List.replicate 64 0x41), dst := Memory.writeAll [] 0 (List.replicate 64 0x42) } }

/-- A host that has read nothing, at a branch to the program's only statement. -/
def branching (st : Stmt) (v : Option Word) : State :=
  { atStmt st State.reset with host := { (atStmt st State.reset).host with lastRead := v } }

/-- The machine after reset with its host in the fault state. -/
def faultedState : State := { State.reset with host := { HostAgent.initial with status := .faulted 0 } }

theorem witness_ReservedWordIsBadCmd :
    (((0x00000008 : Word).extractLsb' 3 29 ≠ 0) ∧ ((0x80000000 : Word).extractLsb' 3 29 ≠ 0)) ∧
    State.reset.block.busy = false ∧ busyState.block.busy = true := by decide

theorem witness_TransactionKindsDecode :
    let t (k : BitVec 2) : HostTxn := ⟨k, 0xFFFFFFFF, 0xFFFFFFFF⟩
    ((t 0b00).kind.getLsbD 1 = false ∧ (t 0b00).kind.getLsbD 0 = false) ∧
    ((t 0b01).kind.getLsbD 1 = false ∧ (t 0b01).kind.getLsbD 0 = true) ∧
    ((t 0b10).kind.getLsbD 1 = true ∧ (t 0b10).kind.getLsbD 0 = false) ∧
    ((t 0b11).kind.getLsbD 1 = true ∧ (t 0b11).kind.getLsbD 0 = true) := by decide

theorem witness_AlphabetTables : (61 : Sextet).toNat ≤ 61 := by decide

theorem witness_EncodeLengthLaw : (List.replicate 65536 (0 : Byte)).length ≤ 65536 :=
  Nat.le_of_eq List.length_replicate

theorem witness_EncodeGroups : 3 * 1 < ([0x66, 0x6F, 0x6F, 0x62] : List Byte).length := by decide

theorem witness_DecodeLengthLaw :
    validate .std [] = .ok 0 ∧ ([] : List Byte).length = 0 ∧
    validate .std (asciiBytes "TQ==") = .ok 2 ∧ 4 ≤ (asciiBytes "TQ==").length := by decide

theorem witness_DecodeGroups :
    ((asciiBytes "Zm9vYmFy").drop (4 * 1)).take 4 = [0x59, 0x6D, 0x46, 0x79] ∧
    (∀ k : Fin 4, (![0x54, 0x51, 0x3D, 0x3D] : Fin 4 → Byte) k = alpha .std ((![19, 16, 0, 0] : Fin 4 → Sextet) k) ∨
      ((![0x54, 0x51, 0x3D, 0x3D] : Fin 4 → Byte) k = 0x3D ∧ (![19, 16, 0, 0] : Fin 4 → Sextet) k = 0)) := by decide

theorem witness_ValidateFirstOffender : (asciiBytes "=!==").length % 4 = 0 := by decide

theorem witness_ValidTextShape : validate .url (asciiBytes "-_8=") = .ok 1 := by decide

theorem witness_CrossAlphabetText :
    (∀ c ∈ asciiBytes "TWFu", c ≠ 0x2B ∧ c ≠ 0x2F ∧ c ≠ 0x2D ∧ c ≠ 0x5F) ∧
    validate .url (asciiBytes "--__") = .ok 0 ∧ validate .std (asciiBytes "++//") = .ok 0 := by decide

theorem witness_DiscardedBitsIgnored :
    (asciiBytes "Zm9v").length % 4 = 0 ∧ (∀ c ∈ asciiBytes "Zm9v", ∃ i, c = alpha .std i) ∧
    (16 : Sextet).extractLsb' 4 2 = (31 : Sextet).extractLsb' 4 2 ∧ (4 : Sextet).extractLsb' 2 4 = (7 : Sextet).extractLsb' 2 4 := by
  decide

theorem witness_NopChangesNothing : State.reset.block.busy = false ∧ busyState.block.busy = true := ⟨rfl, rfl⟩

theorem witness_ClrstatClears : (loaded [0x41] 1).block.busy = false ∧ busyState.block.busy = true := ⟨rfl, rfl⟩

theorem witness_DataCommandsAccepted : (loaded [] 0xFFFFFFFF).block.busy = false := rfl

theorem witness_CmdWriteDispatches :
    decode (.cmd 0x6) = .ok .decUrl ∧ State.reset.block.busy = false ∧ decode (.cmd 0x4) = .error .nopWithUrl ∧
    busyState.block.busy = true := by decide

/-- The last byte of SRC and of DST, written and unwritten, and the first offset past each. -/
theorem witness_ByteReads :
    State.reset.params.Wf ∧ fullState.params.Wf ∧
    (InSrc fullState.params 0x1003F 1 ∧ fullState.block.src.cell (0x1003F - 0x10000) = some 0x41) ∧
    (InSrc State.reset.params 0x1003F 1 ∧ State.reset.block.src.cell (0x1003F - 0x10000) = none) ∧
    (InDst fullState.params 0x2003F 1 ∧ fullState.block.busy = false ∧ fullState.block.dst.cell (0x2003F - 0x20000) = some 0x42) ∧
    (InDst State.reset.params 0x2003F 1 ∧ State.reset.block.dst.cell (0x2003F - 0x20000) = none) ∧
    (¬ InSrc State.reset.params 0x10040 1 ∧ ¬ InDst State.reset.params 0x10040 1) ∧
    (¬ InSrc State.reset.params 0x20040 1 ∧ ¬ InDst State.reset.params 0x20040 1) := by decide

theorem witness_RegisterReads : State.reset.params.Wf ∧ State.reset.block.busy = false := by decide

/-- The last word of SRC and of DST, of written cells and of unwritten ones. -/
theorem witness_BufferWordReads :
    fullState.params.Wf ∧ State.reset.params.Wf ∧
    ((0x1003C : Word).toNat % 4 = 0 ∧ InSrc fullState.params 0x1003C 4 ∧ InSrc State.reset.params 0x1003C 4) ∧
    ((0x2003C : Word).toNat % 4 = 0 ∧ InDst fullState.params 0x2003C 4 ∧ InDst State.reset.params 0x2003C 4) ∧
    fullState.block.busy = false ∧ State.reset.block.busy = false ∧
    (∀ k, k < 4 → State.reset.block.src.cell (0x1003C - 0x10000 + k) = none) ∧
    (∀ k, k < 4 → State.reset.block.dst.cell (0x2003C - 0x20000 + k) = none) := by decide

theorem witness_BufferWordsLittleEndian :
    fullState.params.Wf ∧ (0x1003C : Word).toNat % 4 = 0 ∧ InSrc fullState.params 0x1003C 4 ∧ fullState.block.busy = false ∧
    (fullState.block.src.cell (0x1003C - 0x10000) = some 0x41 ∧ fullState.block.src.cell (0x1003C - 0x10000 + 1) = some 0x41 ∧
      fullState.block.src.cell (0x1003C - 0x10000 + 2) = some 0x41 ∧ fullState.block.src.cell (0x1003C - 0x10000 + 3) = some 0x41) ∧
    (0x2003C : Word).toNat % 4 = 0 ∧ InDst fullState.params 0x2003C 4 ∧
    (fullState.block.dst.cell (0x2003C - 0x20000) = some 0x42 ∧ fullState.block.dst.cell (0x2003C - 0x20000 + 1) = some 0x42 ∧
      fullState.block.dst.cell (0x2003C - 0x20000 + 2) = some 0x42 ∧ fullState.block.dst.cell (0x2003C - 0x20000 + 3) = some 0x42) := by
  decide

theorem witness_ReadsWhileBusy :
    (running false false fullState).params.Wf ∧ (running false false fullState).block.busy = true ∧
    InDst (running false false fullState).params 0x2003F 1 ∧
    ((0x2003C : Word).toNat % 4 = 0 ∧ InDst (running false false fullState).params 0x2003C 4) ∧
    (InSrc (running false false fullState).params 0x1003F 1 ∧
      (running false false fullState).block.src.cell (0x1003F - 0x10000) = some 0x41) ∧
    ((0x1003C : Word).toNat % 4 = 0 ∧ InSrc (running false false fullState).params 0x1003C 4 ∧
      (running false false fullState).block.src.cell (0x1003C - 0x10000 + 3) = some 0x41) := by decide

/-- A byte of SRC, a word of DST and a register. -/
theorem witness_ReadsHaveNoSideEffects :
    fullState.params.Wf ∧
    (∃ t, exec (.r8 0x1003F) fullState = .next t ∧ ReadsExactly fullState 0x1003F 1 ∧ ∃ u, exec (.r8 0x1003F) t = .next u) ∧
    (∃ t, exec (.r32 0x2003C) fullState = .next t ∧ ReadsExactly fullState 0x2003C 4 ∧ ∃ u, exec (.r32 0x2003C) t = .next u) ∧
    (∃ t, exec (.r32 0xC) fullState = .next t ∧ ReadsExactly fullState 0xC 4 ∧ ∃ u, exec (.r32 0xC) t = .next u) := by
  refine ⟨by decide, ⟨_, rfl, ?_, _, rfl⟩, ⟨_, rfl, ?_, _, rfl⟩, ⟨_, rfl, ?_, _, rfl⟩⟩ <;> (unfold ReadsExactly; decide)

theorem witness_ByteWrites :
    InSrc State.reset.params 0x1003F 1 ∧ State.reset.block.busy = false ∧
    (InSrc busyState.params 0x1003F 1 ∧ busyState.block.busy = true) ∧
    (¬ InSrc State.reset.params 0x10040 1 ∧ ¬ InSrc State.reset.params 0x20000 1) := by decide

theorem witness_SrcLenWritesAndReadsBack :
    State.reset.block.busy = false ∧ (∃ t, exec (.w32 0x8 0xFFFFFFFF) State.reset = .next t) ∧ busyState.block.busy = true ∧
    (programWf (running false false (loaded [] 65)).host.program = true ∧ (running false false (loaded [] 65)).mover = .block ∧
      (running false false (loaded [] 65)).params.srcDepth < (running false false (loaded [] 65)).block.srcLen.toNat) ∧
    (∃ t, exec .encStd State.reset = .next t) ∧
    (∃ t, (running false false (loaded [] 65)).mover = .block ∧ step (running false false (loaded [] 65)) = .next t) :=
  ⟨rfl, ⟨_, rfl⟩, rfl, by decide, ⟨_, rfl⟩, ⟨_, rfl, rfl⟩⟩

theorem witness_WritesWhileBusyIgnored :
    busyState.block.busy = true ∧ (IsWrite .nop ∧ Permitted busyState.params .nop) ∧
    (IsWrite (.w8 0x1003F 0) ∧ Permitted busyState.params (.w8 0x1003F 0)) ∧
    (IsWrite (.w32 0x1003C 0) ∧ Permitted busyState.params (.w32 0x1003C 0)) ∧
    (IsWrite (.w32 0x8 9) ∧ Permitted busyState.params (.w32 0x8 9)) ∧
    (IsWrite (.w32 0x4 0) ∧ ¬ Permitted busyState.params (.w32 0x4 0)) := by
  simp only [IsWrite, Permitted]
  decide

theorem witness_AccessPermissions :
    State.reset.params.Wf ∧ Permitted State.reset.params (.r8 0x2003F) ∧ Permitted State.reset.params (.r32 0x18) ∧
    Permitted State.reset.params (.w32 0x0 0x4) ∧ ¬ Permitted State.reset.params (.r32 0x0) ∧
    ¬ Permitted State.reset.params (.w8 0x20000 0) := by
  simp only [Permitted]
  decide

/-- With depths 62 and 61: the word at SRC+60 reaches past SRC, and the word at DST+60 past DST. -/
theorem witness_BusErrorConditions :
    Config.Params.Wf ⟨62, 61⟩ ∧
    (0x1C ≤ (0x1C : Word).toNat ∧ ¬ InSrc ⟨62, 61⟩ 0x1C 1 ∧ ¬ InDst ⟨62, 61⟩ 0x1C 1) ∧
    (0x1C ≤ (0x1003E : Word).toNat ∧ ¬ InSrc ⟨62, 61⟩ 0x1003E 1 ∧ ¬ InDst ⟨62, 61⟩ 0x1003E 1) ∧
    (0x18 : Word).toNat < 0x1C ∧ (0x1003D : Word).toNat % 4 ≠ 0 ∧
    (InSrc ⟨62, 61⟩ 0x1003C 1 ∧ ¬ InSrc ⟨62, 61⟩ 0x1003C 4) ∧
    (InDst ⟨62, 61⟩ 0x2003C 1 ∧ ¬ InDst ⟨62, 61⟩ 0x2003C 4) ∧ InDst ⟨62, 61⟩ 0x20000 1 := by decide

theorem statusInv_running (op alph : Bool) (bytes : List Byte) (n : Word) : (running op alph (loaded bytes n)).block.StatusInv := by
  refine ⟨fun _ => ⟨rfl, rfl, rfl⟩, fun h => ?_, ?_, ?_⟩
  · cases h
  · show false = true ↔ 1 ≤ (0 : BitVec 4).toNat ∧ (0 : BitVec 4).toNat ≤ 6
    decide
  · show false = false ↔ (0 : BitVec 4) = 0
    decide

/-- LEN_RANGE at 65, DST_OVERFLOW at 49, success at 48 (W1, W4, W3). -/
theorem witness_EncodeCompletion :
    let s (n : Word) : State := running false true (loaded [] n)
    (∀ n, programWf (s n).host.program = true ∧ (s n).params.Wf ∧ (s n).block.StatusInv ∧ (s n).mover = .block ∧
      (s n).block.opL = false) ∧
    (s 65).params.srcDepth < (s 65).block.srcLen.toNat ∧
    ((s 49).block.srcLen.toNat ≤ (s 49).params.srcDepth ∧ (s 49).params.dstDepth < (((s 49).block.srcLen.toNat + 2) / 3) * 4) ∧
    ((s 48).block.srcLen.toNat ≤ (s 48).params.srcDepth ∧ (((s 48).block.srcLen.toNat + 2) / 3) * 4 ≤ (s 48).params.dstDepth) := by
  refine ⟨fun n => ⟨rfl, ?_, statusInv_running _ _ _ _, rfl, rfl⟩, by decide, by decide, by decide⟩
  show Config.tc1.Wf
  decide

/-- LEN_RANGE at 65 and a length that is in range. -/
theorem witness_DecodeCompletion :
    let s (n : Word) : State := running true false (loaded (asciiBytes "TWE=") n)
    (∀ n, programWf (s n).host.program = true ∧ (s n).params.Wf ∧ (s n).block.StatusInv ∧ (s n).mover = .block ∧
      (s n).block.opL = true) ∧
    (s 65).params.srcDepth < (s 65).block.srcLen.toNat ∧ (s 64).block.srcLen.toNat ≤ (s 64).params.srcDepth ∧
    ((s 4).block.src.cell 3 = some 0x3D ∧ validate .std (asciiBytes "TWE=") = .ok 1) := by
  refine ⟨fun n => ⟨rfl, ?_, statusInv_running _ _ _ _, rfl, rfl⟩, by decide, by decide, by decide, by decide⟩
  show Config.tc1.Wf
  decide

/-- W6. -/
theorem witness_BadLengthBeforeCharacters :
    let s : State := running true false (loaded [0x21, 0x41, 0x41, 0x41, 0x41] 5)
    programWf s.host.program = true ∧ s.mover = .block ∧ s.block.opL = true ∧ s.block.srcLen.toNat ≤ s.params.srcDepth ∧
      s.block.srcLen.toNat % 4 ≠ 0 := by decide

/-- A running command on the machine after reset is a good state. -/
theorem inv_running (op alph : Bool) (n : Word) : (running op alph (loaded [] n)).Inv where
  params := by
    show Config.tc1.Wf
    decide
  status := statusInv_running op alph [] n
  buffers := ⟨.nil, fun _ h => (by cases h), .nil, fun _ h => (by cases h)⟩
  result := ⟨Nat.zero_le _, fun h => (by cases h)⟩
  host := ⟨rfl, Nat.zero_le _, fun _ h => (by cases h)⟩

/-- A completion that succeeds (an empty encode) and one that fails (LEN_RANGE). -/
theorem witness_CompletionAllOrNothing :
    ((running false false (loaded [] 0)).Inv ∧ (running false false (loaded [] 0)).mover = .block ∧
      ∃ t, step (running false false (loaded [] 0)) = .next t ∧ t.block.done = true) ∧
    ((running true false (loaded [] 65)).Inv ∧ (running true false (loaded [] 65)).mover = .block ∧
      ∃ t, step (running true false (loaded [] 65)) = .next t ∧ t.block.err = true) :=
  ⟨⟨inv_running _ _ _, rfl, _, rfl, rfl⟩, ⟨inv_running _ _ _, rfl, _, rfl, rfl⟩⟩

/-- Two states that differ in DST, in OVR and beyond SRC_LEN. -/
theorem witness_ResultDependsOnInputsOnly :
    let s : State := running false false (loaded [0x4D, 0x61] 2)
    let s' : State :=
      { s with block := { s.block with src := [(0, 0x4D), (1, 0x61), (2, 0x6E)], dst := [(0, 0x41)], ovr := true }, draws := 7 }
    s.mover = .block ∧ s'.mover = .block ∧ s.params.Wf ∧ s.params = s'.params ∧ s.block.opL = s'.block.opL ∧
    s.block.alphL = s'.block.alphL ∧ s.block.srcLen = s'.block.srcLen ∧
    (∀ i, i < s.block.srcLen.toNat → s.block.src.cell i ≠ none ∧ s.block.src.cell i = s'.block.src.cell i) ∧
    s.block.err = false ∧ s'.block.err = false ∧ s.block.errcode = 0 ∧ s'.block.errcode = 0 ∧
    (∃ t, step s = .next t) ∧ ∃ t', step s' = .next t' := by
  refine ⟨rfl, rfl, by decide, rfl, rfl, rfl, rfl, by decide, rfl, rfl, rfl, rfl, ⟨_, rfl⟩, ⟨_, rfl⟩⟩

/-- The byte `M`, encoded and decoded again. -/
theorem witness_EncodeThenDecodeRoundTrip :
    let d : List Byte := [0x4D]
    let s : State := running false false (loaded d 1)
    let t : State := stepTo s
    let u : State := running true false (loaded (asciiBytes "TQ==") 4)
    s.params.Wf ∧ s.mover = .block ∧ s.block.opL = false ∧ s.block.srcLen.toNat = d.length ∧ Holds s.block.src d ∧
    d.length ≤ s.params.srcDepth ∧ ((d.length + 2) / 3) * 4 ≤ s.params.dstDepth ∧ ((d.length + 2) / 3) * 4 ≤ s.params.srcDepth ∧
    step s = .next t ∧ programWf u.host.program = true ∧ u.params = s.params ∧ u.mover = .block ∧ u.block.opL = true ∧
    u.block.alphL = s.block.alphL ∧ u.block.srcLen = t.block.dstLen ∧
    (∀ i, i < t.block.dstLen.toNat → u.block.src.cell i = t.block.dst.cell i) := by
  refine ⟨by decide, rfl, rfl, rfl, by decide, by decide, by decide, by decide, rfl, rfl, rfl, rfl, rfl, rfl, by decide, by decide⟩

/-- A reset while a command runs. -/
theorem witness_ResetEventResetsBlock :
    programWf ({ busyState with turns := [.reset] } : State).host.program = true ∧
    ({ busyState with turns := [.reset] } : State).turns = .reset :: [] ∧ busyState.block.busy = true := ⟨rfl, rfl, rfl⟩

theorem witness_StepRunsDecodedInstruction :
    let s : State := issuing ⟨0b11, 0x0, 0x1⟩ State.reset
    programWf s.host.program = true ∧ s.mover = .host ∧ s.host.status = .running ∧
    s.host.program[s.host.pc]? = some (.txn ⟨0b11, 0x0, 0x1⟩) ∧ decode (.txn ⟨0b11, 0x0, 0x1⟩) = .ok (.w32 0x0 0x1) :=
  ⟨rfl, rfl, rfl, rfl, rfl⟩

theorem witness_FetchWordRunsNext :
    decodeTableWord 32 0x5 = some .encUrl ∧ decodeTableWord 66 0x40003 = some (.w32 0x10000 0) := by decide

/-- The block's turn on the busy block, and on the idle one, where the host moves; a busy block under an empty schedule. -/
theorem witness_BlockStepsExactlyWhenBusy :
    (({ busyState with turns := [.block] } : State).turns = .block :: [] ∧ busyState.block.busy = true) ∧
    ({ State.reset with turns := [.block] } : State).mover = .host ∧
    (programWf busyState.host.program = true ∧ busyState.mover = .block ∧ busyState.block.opL = false) ∧
    (running true false State.reset).mover = .block ∧ (running true false State.reset).block.opL = true := by decide

theorem witness_StepKeepsInvariant :
    (running false true (loaded [] 0)).Inv ∧ ∃ t, step (running false true (loaded [] 0)) = .next t := ⟨inv_running _ _ _, _, rfl⟩

/-- An acceptance, a completion and a reset. -/
theorem witness_BusyChangesOnlyByAcceptanceAndCompletion :
    (∃ t, step (issuing ⟨0b11, 0x0, 0x6⟩ State.reset) = .next t ∧ State.reset.block.busy = false ∧ t.block.busy = true) ∧
    (∃ t, step busyState = .next t ∧ busyState.block.busy = true ∧ t.block.busy = false) ∧
    (∃ t, step { busyState with turns := [.reset] } = .next t ∧ busyState.block.busy = true ∧ t.block.busy = false) :=
  ⟨⟨_, rfl, rfl, rfl⟩, ⟨_, rfl, rfl, rfl⟩, ⟨_, rfl, rfl, rfl⟩⟩

/-- STATUS 0x2 with the host about to write `w` to CMD. -/
def doneState (w : Word) : State :=
  { issuing ⟨0b11, 0x0, w⟩ State.reset with block := { BlockState.reset with done := true } }

theorem inv_doneState (w : Word) : (doneState w).Inv where
  params := by
    show Config.tc1.Wf
    decide
  status := by
    refine ⟨fun h => ?_, fun _ => rfl, ?_, ?_⟩
    · cases h
    · show false = true ↔ 1 ≤ (0 : BitVec 4).toNat ∧ (0 : BitVec 4).toNat ≤ 6
      decide
    · show false = false ↔ (0 : BitVec 4) = 0
      decide
  buffers := ⟨.nil, fun _ h => (by cases h), .nil, fun _ h => (by cases h)⟩
  result := ⟨Nat.zero_le _, fun _ i h => absurd h (Nat.not_lt_zero i)⟩
  host := ⟨rfl, Nat.zero_le _, fun _ h => (by cases h)⟩

theorem issues_doneState (w : Word) : Issues (doneState w) (.w32 0x0 w) := ⟨rfl, rfl, _, rfl, rfl⟩

/-- DONE rises by a completion; it falls by an acceptance, a reserved word, CLRSTAT and reset. -/
theorem witness_DoneChangesOnlyAsStated :
    ((running false false (loaded [] 0)).Inv ∧ (running false false (loaded [] 0)).block.done = false ∧
      ∃ t, step (running false false (loaded [] 0)) = .next t ∧ t.block.done = true) ∧
    (∀ w ∈ [(0x1 : Word), 0x3, 0x4], (doneState w).Inv ∧ (doneState w).block.done = true ∧ (doneState w).block.busy = false ∧
      Issues (doneState w) (.w32 0x0 w) ∧ w ≠ 0x0 ∧ step (doneState w) = .next (stepTo (doneState w)) ∧
      (stepTo (doneState w)).block.done = false) ∧
    (({ doneState 0x0 with turns := [.reset] } : State).Inv ∧ ({ doneState 0x0 with turns := [.reset] } : State).mover = .reset ∧
      ∃ t, step { doneState 0x0 with turns := [.reset] } = .next t) := by
  refine ⟨⟨inv_running _ _ _, rfl, _, rfl, rfl⟩, ?_, ⟨⟨(inv_doneState 0x0).params, (inv_doneState 0x0).status,
    (inv_doneState 0x0).buffers, (inv_doneState 0x0).result, (inv_doneState 0x0).host⟩, rfl, _, rfl⟩⟩
  intro w hw
  have h : w = 0x1 ∨ w = 0x3 ∨ w = 0x4 := by simpa using hw
  refine ⟨inv_doneState w, rfl, rfl, issues_doneState w, ?_⟩
  obtain rfl | rfl | rfl := h
  · exact ⟨by decide, rfl, rfl⟩
  · exact ⟨by decide, rfl, rfl⟩
  · exact ⟨by decide, rfl, rfl⟩

/-- STATUS 0x504 with the host about to write `w` to CMD. -/
def errState (w : Word) : State :=
  { issuing ⟨0b11, 0x0, w⟩ State.reset with block := { BlockState.reset with err := true, errcode := 5 } }

/-- ERR rises by a completion and by a reserved word, and falls by an acceptance, CLRSTAT and reset. -/
theorem witness_ErrChangesOnlyAsStated :
    (∃ t, step (running false false (loaded [] 65)) = .next t ∧ (running false false (loaded [] 65)).block.err = false ∧
      t.block.err = true) ∧
    (∃ t, step (issuing ⟨0b11, 0x0, 0x4⟩ State.reset) = .next t ∧ State.reset.block.err = false ∧ t.block.err = true) ∧
    (∃ t, step (errState 0x1) = .next t ∧ (errState 0x1).block.err = true ∧ t.block.err = false ∧
      (errState 0x1).block.busy = false ∧ Issues (errState 0x1) (.w32 0x0 0x1)) ∧
    (∃ t, step (errState 0x3) = .next t ∧ (errState 0x3).block.busy = false ∧ Issues (errState 0x3) (.w32 0x0 0x3) ∧
      t.block.err = false) ∧
    (∃ t, step { errState 0x0 with turns := [.reset] } = .next t ∧ ({ errState 0x0 with turns := [.reset] } : State).mover = .reset) :=
  ⟨⟨_, rfl, rfl, rfl⟩, ⟨_, rfl, rfl, rfl⟩, ⟨_, rfl, rfl, rfl, rfl, rfl, rfl, _, rfl, rfl⟩, ⟨_, rfl, rfl, ⟨rfl, rfl, _, rfl, rfl⟩, rfl⟩,
    ⟨_, rfl, rfl⟩⟩

/-- OVR rises by an ignored W8 and falls by CLRSTAT and by reset. -/
theorem witness_OvrChangesOnlyAsStated :
    (∃ t, step (issuing ⟨0b10, 0x1003F, 0⟩ busyState) = .next t ∧ busyState.block.ovr = false ∧ t.block.ovr = true ∧
      busyState.block.busy = true ∧ Issues (issuing ⟨0b10, 0x1003F, 0⟩ busyState) (.w8 0x1003F 0) ∧ IsWrite (.w8 0x1003F 0) ∧
      Permitted busyState.params (.w8 0x1003F 0)) ∧
    (let s : State := { issuing ⟨0b11, 0x0, 0x3⟩ State.reset with block := { BlockState.reset with ovr := true } }
      ∃ t, step s = .next t ∧ s.block.ovr = true ∧ t.block.ovr = false ∧ s.block.busy = false ∧ Issues s (.w32 0x0 0x3)) ∧
    busyState.mover = .block ∧ ({ busyState with turns := [.reset] } : State).mover = .reset := by
  refine ⟨⟨_, rfl, rfl, rfl, rfl, ⟨rfl, rfl, _, rfl, rfl⟩, trivial, ?_⟩, ⟨_, rfl, rfl, rfl, rfl, ⟨rfl, rfl, _, rfl, rfl⟩⟩, rfl, rfl⟩
  simp only [Permitted]
  decide

/-- A W8 changes SRC, a W32 changes SRC_LEN, a completion changes DST and DST_LEN. -/
theorem witness_BuffersAndLengthsWriters :
    (let s : State := issuing ⟨0b10, 0x1003F, 0⟩ State.reset;
      s.mover ≠ .reset ∧ ∃ t, step s = .next t ∧ t.block.src ≠ s.block.src) ∧
    (let s : State := issuing ⟨0b11, 0x8, 0xFFFFFFFF⟩ State.reset;
      s.mover ≠ .reset ∧ ∃ t, step s = .next t ∧ t.block.srcLen ≠ s.block.srcLen) ∧
    (let s : State := running false false (loaded [0x4D] 1);
      s.mover ≠ .reset ∧ ∃ t, step s = .next t ∧ t.block.dst ≠ s.block.dst ∧ t.block.dstLen ≠ s.block.dstLen) :=
  ⟨⟨by decide, _, rfl, by decide⟩, ⟨by decide, _, rfl, by decide⟩, ⟨by decide, _, rfl, by decide, by decide⟩⟩

theorem witness_RunningCommandSeesItsInputs :
    ∃ t, step (issuing ⟨0b10, 0x10000, 0x42⟩ busyState) = .next t ∧ busyState.block.busy = true ∧ t.block.busy = true :=
  ⟨_, rfl, rfl, rfl⟩

/-- P4's W8 and each kind of W32, with a command's word and with a reserved one. -/
theorem witness_WriteAndCompletionBothOrders :
    (∀ x ∈ [(⟨0b10, 0x10001, 0x6E⟩ : HostTxn), ⟨0b11, 0x8, 2⟩, ⟨0b11, 0x1003C, 0x6E614D00⟩, ⟨0b11, 0x0, 0x6⟩, ⟨0b11, 0x0, 0x4⟩],
      let s : State := issuing x (running false false (loaded (asciiBytes "Ma") 2))
      programWf s.host.program = true ∧ s.block.busy = true ∧ s.host.status = .running ∧
      s.host.program[s.host.pc]? = some (.txn x) ∧ decode (.txn x) = .ok (decodeTxn x)) ∧
    (IsWrite (.w8 0x10001 0x6E) ∧ Permitted Config.tc1 (.w8 0x10001 0x6E)) ∧
    (IsWrite (.w32 0x8 2) ∧ Permitted Config.tc1 (.w32 0x8 2)) ∧
    (IsWrite (.w32 0x1003C 0x6E614D00) ∧ Permitted Config.tc1 (.w32 0x1003C 0x6E614D00) ∧ InSrc Config.tc1 0x1003C 4) ∧
    (Permitted Config.tc1 (.w32 0x0 0x6) ∧ decode (.cmd 0x6) = .ok .decUrl ∧ (0x6 : Word) ∈ dataWords) ∧
    (Permitted Config.tc1 (.w32 0x0 0x4) ∧ decode (.cmd 0x4) = .error .nopWithUrl) := by
  unfold IsWrite Permitted
  decide

theorem witness_AcceptedCommandCompletes :
    programWf ({ busyState with turns := [.host, .host] } : State).host.program = true ∧
    ({ busyState with turns := [.host, .host] } : State).block.busy = true := ⟨rfl, rfl⟩

/-- An ill-formed program; a branch with each outcome of its test; HALT; the end of the program; a transaction. -/
theorem witness_HostControlFlow :
    (∃ st ∈ (atStmt (.bz 0x1 1) State.reset).host.program, ∃ mask k, (st = .bnz mask k ∨ st = .bz mask k) ∧
      (atStmt (.bz 0x1 1) State.reset).host.program.length ≤ k) ∧
    (∀ v ∈ [(0x0 : Word), 0x5], ∀ s ∈ [branching (.bnz 0x1 0) (some v), branching (.bz 0x4 0) (some v)],
      programWf s.host.program = true ∧ s.mover = .host ∧ s.host.status = .running ∧ s.host.lastRead = some v) ∧
    ((branching (.bnz 0x1 0) (some 0x5)).host.program[(branching (.bnz 0x1 0) (some 0x5)).host.pc]? = some (.bnz 0x1 0) ∧
      (branching (.bz 0x4 0) (some 0x5)).host.program[(branching (.bz 0x4 0) (some 0x5)).host.pc]? = some (.bz 0x4 0)) ∧
    (atStmt .halt State.reset).host.program[(atStmt .halt State.reset).host.pc]? = some .halt ∧
    State.reset.host.program.length ≤ State.reset.host.pc ∧
    (∃ t, step (issuing ⟨0b01, 0x4, 0⟩ State.reset) = .next t ∧ t.host.resp ≠ some .busError) :=
by
  refine ⟨⟨_, by simp [atStmt], 0x1, 1, .inr rfl, by decide⟩, ?_, ⟨rfl, rfl⟩, rfl, by decide, _, rfl, by decide⟩
  intro v _ s hs
  obtain rfl | rfl : s = branching (.bnz 0x1 0) (some v) ∨ s = branching (.bz 0x4 0) (some v) := by simpa using hs
  · exact ⟨rfl, rfl, rfl, rfl⟩
  · exact ⟨rfl, rfl, rfl, rfl⟩

theorem witness_BranchBeforeReadFaults :
    let s : State := branching (.bnz 0x1 0) none
    programWf s.host.program = true ∧ s.mover = .host ∧ s.host.status = .running ∧ s.host.lastRead = none ∧
    s.host.program[s.host.pc]? = some (.bnz 0x1 0) := ⟨rfl, rfl, rfl, rfl, rfl⟩

/-- A bus error; a faulted host beside a running command, which completes; a faulted host beside an idle block. -/
theorem witness_HostFaultIsForever :
    (∃ t, exec (.r8 0x4) State.reset = .next t ∧ t.host.resp = some .busError) ∧
    (programWf (running false false faultedState).host.program = true ∧ (running false false faultedState).host.status = .faulted 0 ∧
      (running false false faultedState).block.busy = true ∧ ∃ t, step (running false false faultedState) = .next t) ∧
    (programWf faultedState.host.program = true ∧ faultedState.host.status = .faulted 0 ∧ faultedState.block.busy = false ∧
      faultedState.mover ≠ .reset) :=
  ⟨⟨_, rfl, rfl⟩, ⟨rfl, rfl, rfl, _, rfl⟩, rfl, rfl, rfl, by decide⟩

/-- A first and a last byte of a LOADB, an ASCII text, and a WAIT behind another line. -/
theorem witness_PseudoInstructionsExpand :
    0 < ([0xFB, 0xEF, 0xFF] : List Byte).length ∧ 2 < ([0xFB, 0xEF, 0xFF] : List Byte).length ∧
    (∀ c ∈ "TQ=A".toList, c.toNat < 128) ∧
    assemble ([.run 0x1] ++ SrcLine.wait :: [.halt]) =
      .ok [.txn ⟨0b11, 0x0, 1⟩, .txn ⟨0b01, 0x4, 0⟩, .bnz 0x1 1, .txn ⟨0b01, 0x4, 0⟩, .bnz 0x1 3, .halt] := by
  refine ⟨by decide, by decide, by simp, by decide⟩

theorem witness_AssembledProgramsWellFormed :
    assemble [.label "W1", .r32 0x4, .bnz 0x1 "W1", .halt] = .ok [.txn ⟨0b01, 0x4, 0⟩, .bnz 0x1 0, .halt] := by decide

end Sys2Proof.Tests
end

/-! ## The state family: what the registers read, and who writes BUSY, DONE, ERR and OVR (R25 to R28, R30, R32) -/

section
/-! SUPPORT. Rules about the block's registers, the busy hazard, completions and command words. -/

namespace Sys2Proof.Machine

open Sys2Proof.Claims

/-! ### The STATUS word (R24, R30) -/

/-- Every bit of STATUS: the four flags, ERRCODE in 11:8, and 0 elsewhere. -/
theorem BlockState.statusWord_getLsbD (b : BlockState) (i : Nat) :
    b.statusWord.getLsbD i =
      if i < 4 then [b.busy, b.done, b.err, b.ovr].getD i false
      else if 8 ≤ i then b.errcode.getLsbD (i - 8) else false := by
  unfold BlockState.statusWord
  -- the width as the fields sum to it, the form in which `getLsbD_append` applies
  change BitVec.getLsbD (w := 20 + 4 + 4 + 1 + 1 + 1 + 1) _ i = _
  simp only [BitVec.getLsbD_append]
  obtain _ | _ | _ | _ | i := i
  · simp
  · simp
  · simp
  · simp
  · by_cases hi : i < 4
    · simp [hi]
    · by_cases hcode : i - 4 < 4
      · simp [show ¬ i + 4 < 4 by omega, hi, hcode, show 4 ≤ i by omega]
      · simp [hi, hcode, BitVec.getLsbD_of_ge _ _ (Nat.le_of_not_lt hcode)]

theorem BlockState.statusWord_errcode (b : BlockState) : b.statusWord.extractLsb' 8 4 = b.errcode := by
  refine BitVec.eq_of_getLsbD_eq fun i hi => ?_
  simp [hi, BlockState.statusWord_getLsbD, show ¬ 8 + i < 4 by omega]

theorem BlockState.statusWord_bits_7_4 (b : BlockState) : b.statusWord.extractLsb' 4 4 = 0 := by
  refine BitVec.eq_of_getLsbD_eq fun i hi => ?_
  simp [hi, BlockState.statusWord_getLsbD, show ¬ 8 ≤ 4 + i by omega]

theorem BlockState.statusWord_bits_31_12 (b : BlockState) : b.statusWord.extractLsb' 12 20 = 0 := by
  refine BitVec.eq_of_getLsbD_eq fun i hi => ?_
  simp [BlockState.statusWord_getLsbD, show ¬ 12 + i < 4 by omega,
    BitVec.getLsbD_of_ge _ _ (show 4 ≤ 12 + i - 8 by omega)]

/-- A depth within the range of R7 fits into its capacity register. -/
theorem toNat_ofNat_depth {n : Nat} (h : n ≤ 65536) : (BitVec.ofNat 32 n).toNat = n := by
  rw [BitVec.toNat_ofNat, Nat.mod_eq_of_lt (by omega)]

/-! ### An R32 of each register (R212) -/

theorem exec_r32_status (s : State) : exec (.r32 0x4) s = .next (afterRead s s.block.statusWord s.draws) := rfl

theorem exec_r32_srcLen (s : State) : exec (.r32 0x8) s = .next (afterRead s s.block.srcLen s.draws) := rfl

theorem exec_r32_dstLen (s : State) :
    exec (.r32 0xC) s = answerRead (if s.block.busy then draw32 s.draws else (s.block.dstLen, s.draws)) s := rfl

theorem exec_r32_errIndex (s : State) :
    exec (.r32 0x10) s = answerRead (if s.block.busy then draw32 s.draws else (s.block.errIdx, s.draws)) s := rfl

theorem exec_r32_srcCap (s : State) :
    exec (.r32 0x14) s = .next (afterRead s (BitVec.ofNat 32 s.params.srcDepth) s.draws) := rfl

theorem exec_r32_dstCap (s : State) :
    exec (.r32 0x18) s = .next (afterRead s (BitVec.ofNat 32 s.params.dstDepth) s.draws) := rfl

theorem exec_r32_dstLen_idle {s : State} (h : s.block.busy = false) :
    exec (.r32 0xC) s = .next (afterRead s s.block.dstLen s.draws) := by
  rw [exec_r32_dstLen, if_neg (by simp [h])]
  rfl

theorem exec_r32_errIndex_idle {s : State} (h : s.block.busy = false) :
    exec (.r32 0x10) s = .next (afterRead s s.block.errIdx s.draws) := by
  rw [exec_r32_errIndex, if_neg (by simp [h])]
  rfl

/-! ### The block after reset (R44) -/

@[simp] theorem BlockState.reset_busy : BlockState.reset.busy = false := rfl
@[simp] theorem BlockState.reset_done : BlockState.reset.done = false := rfl
@[simp] theorem BlockState.reset_err : BlockState.reset.err = false := rfl
@[simp] theorem BlockState.reset_ovr : BlockState.reset.ovr = false := rfl

/-! ### The busy hazard (R276) -/

theorem BlockState.writeUnlessBusy_of_busy {b : BlockState} (h : b.busy = true) (f : BlockState → BlockState) :
    b.writeUnlessBusy f = b.setOvr := if_pos h

theorem BlockState.writeUnlessBusy_of_idle {b : BlockState} (h : b.busy = false) (f : BlockState → BlockState) :
    b.writeUnlessBusy f = f b := if_neg (by simp [h])

/-! ### Error codes and completions -/

theorem ErrCode.code_range (c : ErrCode) : 1 ≤ c.code.toNat ∧ c.code.toNat ≤ 6 := by
  cases c <;> decide

/-- With SRC_LEN above SRC_DEPTH every command fails with LEN_RANGE (R131, R167). -/
theorem completeCommand_lenRange {p : Config.Params} {b : BlockState} (h : p.srcDepth < b.srcLen.toNat) (d : Nat) :
    completeCommand p b d = (b.opError .lenRange 0, d) := by
  simp [completeCommand, completeEncode, completeDecode, h]

/-- No completion writes SRC_LEN (R32). -/
theorem completeCommand_srcLen (p : Config.Params) (b : BlockState) (d : Nat) :
    (completeCommand p b d).1.srcLen = b.srcLen := by
  obtain ⟨code, i, h⟩ | ⟨out, h⟩ := completeCommand_cases p b d <;> simp [h]

/-- No completion writes OVR (R28). -/
theorem completeCommand_ovr (p : Config.Params) (b : BlockState) (d : Nat) :
    (completeCommand p b d).1.ovr = b.ovr := by
  obtain ⟨code, i, h⟩ | ⟨out, h⟩ := completeCommand_cases p b d <;> simp [h]

/-! ### Commands -/

/-- No command writes SRC_LEN (R32). -/
@[simp] theorem commandEffect_srcLen (c : Command) (b : BlockState) : (commandEffect c b).srcLen = b.srcLen := by
  cases c <;> rfl

/-- CLRSTAT and the data commands clear DONE, ERR and OVR (R192, R195). -/
theorem commandEffect_clears {c : Command} (hc : c ≠ .nop) (b : BlockState) :
    (commandEffect c b).done = false ∧ (commandEffect c b).err = false ∧ (commandEffect c b).ovr = false := by
  cases c with
  | nop => exact absurd rfl hc
  | clrstat => exact ⟨rfl, rfl, rfl⟩
  | enc a => exact ⟨rfl, rfl, rfl⟩
  | dec a => exact ⟨rfl, rfl, rfl⟩

/-- The words of the data commands and of CLRSTAT are commands other than NOP (R93). -/
theorem decodeCmd_clearing {w : Word} (h : w ∈ dataWords ∨ w = 0x3) : ∃ c, decodeCmd w = .ok c ∧ c ≠ .nop := by
  simp only [dataWords, List.mem_cons, List.not_mem_nil, or_false] at h
  obtain (rfl | rfl | rfl | rfl) | rfl := h
  · exact ⟨.enc .std, by decide, by decide⟩
  · exact ⟨.dec .std, by decide, by decide⟩
  · exact ⟨.enc .url, by decide, by decide⟩
  · exact ⟨.dec .url, by decide, by decide⟩
  · exact ⟨.clrstat, by decide, by decide⟩

/-- NOP is the word 0 (R93). -/
theorem decodeCmd_nop {w : Word} (h : decodeCmd w = .ok .nop) : w = 0x0 := by
  simpa using decodeCmd_ok h

theorem decode_of_decodeCmd_error {w : Word} {r : DecodeReject} (h : decodeCmd w = .error r) :
    decode (.cmd w) = .error r := by
  rw [decode_cmd, h]
  rfl

/-- Every row of format CMD is a command's. -/
theorem exists_command_of_mem {i : Instr} (h : i ∈ [Instr.nop, .encStd, .decStd, .clrstat, .encUrl, .decUrl]) :
    ∃ c : Command, i = c.instr := by
  simp only [List.mem_cons, List.not_mem_nil, or_false] at h
  obtain rfl | rfl | rfl | rfl | rfl | rfl := h
  · exact ⟨.nop, rfl⟩
  · exact ⟨.enc .std, rfl⟩
  · exact ⟨.dec .std, rfl⟩
  · exact ⟨.clrstat, rfl⟩
  · exact ⟨.enc .url, rfl⟩
  · exact ⟨.dec .url, rfl⟩

/-! ### The permitted writes are the host writes that have an effect (R62) -/

theorem HostWrite.isWrite {p : Config.Params} {i : Instr} {f : BlockState → BlockState} (h : HostWrite p i f) :
    IsWrite i := by
  cases h with
  | command c => obtain _ | _ | (_ | _) | (_ | _) := c <;> trivial
  | cmdWord | reserved | srcLen | srcByte | srcWord => trivial

theorem HostWrite.permitted {p : Config.Params} {i : Instr} {f : BlockState → BlockState} (h : HostWrite p i f) :
    Permitted p i := by
  cases h with
  | command c => obtain _ | _ | (_ | _) | (_ | _) := c <;> trivial
  | cmdWord | reserved => exact .inl rfl
  | srcLen => exact .inr (.inl rfl)
  | srcByte off data h => exact (inSrc_iff p off (by omega)).1 h
  | srcWord off data ha h => exact .inr (.inr ⟨(aligned_iff off).1 ha, (inSrc_iff p off (by omega)).1 h⟩)

/-- A W32 to CMD is a host write whatever its word. -/
theorem exists_hostWrite_cmd (p : Config.Params) (w : Word) : ∃ f, HostWrite p (.w32 0x0 w) f := by
  cases h : decodeCmd w with
  | ok c => exact ⟨_, .cmdWord w c h⟩
  | error r => exact ⟨_, .reserved w r h⟩

theorem exists_hostWrite {p : Config.Params} {i : Instr} (hw : IsWrite i) (hp : Permitted p i) :
    ∃ f, HostWrite p i f := by
  cases i with
  | nop => exact ⟨_, .command .nop⟩
  | encStd => exact ⟨_, .command (.enc .std)⟩
  | decStd => exact ⟨_, .command (.dec .std)⟩
  | clrstat => exact ⟨_, .command .clrstat⟩
  | encUrl => exact ⟨_, .command (.enc .url)⟩
  | decUrl => exact ⟨_, .command (.dec .url)⟩
  | r8 off => exact hw.elim
  | r32 off => exact hw.elim
  | w8 off data => exact ⟨_, .srcByte off data ((inSrc_iff p off (by omega)).2 hp)⟩
  | w32 off data =>
    obtain rfl | rfl | ⟨ha, hin⟩ := hp
    · exact exists_hostWrite_cmd p data
    · exact ⟨_, .srcLen data⟩
    · exact ⟨_, .srcWord off data ((aligned_iff off).2 ha) ((inSrc_iff p off (by omega)).2 hin)⟩

/-! ### What one kind of step does to the block -/

theorem block_of_mover_reset {s t : State} (h : step s = .next t) (hm : s.mover = .reset) : t.block = .reset := by
  rw [step_reset (step_cases h).1 hm] at h
  cases h
  rfl

theorem block_of_mover_block {s t : State} (h : step s = .next t) (hm : s.mover = .block) :
    t.block = (completeCommand s.params s.block s.draws).1 := by
  rw [step_block (step_cases h).1 hm] at h
  cases h
  rfl

/-- A host that issues an instruction executes it, with the turn used up. -/
theorem exec_of_issues {s t : State} {i : Instr} (h : step s = .next t) (hi : Issues s i) :
    exec i s.takeTurn = .next t := by
  obtain ⟨hm, hs, x, hf, rfl⟩ := hi
  rw [← h, step_host (step_cases h).1 hm, hostStep_txn (s := s.takeTurn) hs hf]

/-- A permitted write that the host issues goes through the busy hazard (R276). -/
theorem block_of_issues_hostWrite {s t : State} {i : Instr} {f : BlockState → BlockState} (h : step s = .next t)
    (hi : Issues s i) (hf : HostWrite s.params i f) : t.block = s.block.writeUnlessBusy f := by
  have hx := exec_of_issues h hi
  rw [exec_hostWrite (s := s.takeTurn) hf] at hx
  cases hx
  rfl

/-- A command's word written to CMD on the idle block has the command's effect (R198). -/
theorem block_of_issues_command {s t : State} {w : Word} {c : Command} (h : step s = .next t)
    (hidle : s.block.busy = false) (hi : Issues s (.w32 0x0 w)) (hw : decodeCmd w = .ok c) :
    t.block = commandEffect c s.block := by
  rw [block_of_issues_hostWrite h hi (.cmdWord w c hw), BlockState.writeUnlessBusy_of_idle hidle]

/-- A reserved word written to CMD on the idle block is the error outcome BAD_CMD (R194). -/
theorem block_of_issues_reserved {s t : State} {w : Word} {r : DecodeReject} (h : step s = .next t)
    (hidle : s.block.busy = false) (hi : Issues s (.w32 0x0 w)) (hw : decodeCmd w = .error r) :
    t.block = s.block.opError .badCmd 0 := by
  rw [block_of_issues_hostWrite h hi (.reserved w r hw), BlockState.writeUnlessBusy_of_idle hidle]

end Sys2Proof.Machine
end

section
/-! SUPPORT. The event table of R43 as an inversion of the step: every step of the machine is one of the block's events. -/

namespace Sys2Proof.Machine

open Sys2Proof.Claims

/-- What a step from `s` that leaves the block as `b` is to the block: one of the events of R43, or a step that
leaves the block alone. -/
inductive BlockEvent (s : State) (b : BlockState) : Prop
  /-- R270 -/
  | reset (hm : s.mover = .reset) (hb : b = .reset)
  /-- a completion with the error outcome (R243) -/
  | failed (hm : s.mover = .block) (hbusy : s.block.busy = true) (code : ErrCode) (index : Nat)
      (hb : b = s.block.opError code index)
  /-- a completion with success (R126, R161) -/
  | succeeded (hm : s.mover = .block) (hbusy : s.block.busy = true) (out : List Byte) (hb : b = s.block.succeed out)
  /-- a permitted write while BUSY = 1 (R276) -/
  | ignored (hbusy : s.block.busy = true) (i : Instr) (hi : Issues s i) (hw : IsWrite i) (hp : Permitted s.params i)
      (hb : b = s.block.setOvr)
  /-- the acceptance of a data command (R195) -/
  | accepted (hidle : s.block.busy = false) (w : Word) (hw : w ∈ dataWords) (hi : Issues s (.w32 0x0 w)) (op : Bool)
      (a : Alphabet) (hb : b = s.block.accept op a)
  /-- CLRSTAT (R192) -/
  | cleared (hidle : s.block.busy = false) (hi : Issues s (.w32 0x0 0x3)) (hb : b = s.block.clearStatus)
  /-- a reserved word (R194) -/
  | reserved (hidle : s.block.busy = false) (w : Word) (r : DecodeReject) (hw : decode (.cmd w) = .error r)
      (hi : Issues s (.w32 0x0 w)) (hb : b = s.block.opError .badCmd 0)
  /-- a W32 to SRC_LEN (R32) -/
  | srcLenWritten (hidle : s.block.busy = false) (v : Word) (hi : Issues s (.w32 0x8 v)) (hb : b = s.block.setSrcLen v)
  /-- a W8 or W32 into SRC (R211, R213) -/
  | srcWritten (hidle : s.block.busy = false) (off data : Word) (i : Nat) (bytes : List Byte)
      (hi : (Issues s (.w8 off data) ∧ InSrc s.params off 1) ∨ (Issues s (.w32 off data) ∧ InSrc s.params off 4))
      (hb : b = s.block.writeSrc i bytes)
  /-- NOP, a read, a bus error, or a statement that issues no transaction (R68, R190, R246) -/
  | unchanged (hm : s.mover = .host) (hb : b = s.block)

/-- A write to the idle block is the event of its effect. -/
theorem blockEvent_of_idle_write {s : State} {i : Instr} {f : BlockState → BlockState} (hidle : s.block.busy = false)
    (hi : Issues s i) (hf : HostWrite s.params i f) : BlockEvent s (f s.block) := by
  cases hf with
  | command c =>
    obtain ⟨-, -, x, -, hx⟩ := hi
    exact absurd hx (decodeTxn_ne_command x c)
  | cmdWord w c hw =>
    obtain ⟨rfl, rfl⟩ | ⟨rfl, rfl⟩ | ⟨rfl, rfl⟩ | ⟨rfl, rfl⟩ | ⟨rfl, rfl⟩ | ⟨rfl, rfl⟩ := decodeCmd_ok hw
    · exact .unchanged hi.1 rfl
    · exact .accepted hidle _ (by decide) hi _ _ rfl
    · exact .accepted hidle _ (by decide) hi _ _ rfl
    · exact .cleared hidle hi rfl
    · exact .accepted hidle _ (by decide) hi _ _ rfl
    · exact .accepted hidle _ (by decide) hi _ _ rfl
  | reserved w r hw => exact .reserved hidle w r (decode_of_decodeCmd_error hw) hi rfl
  | srcLen v => exact .srcLenWritten hidle v hi rfl
  | srcByte off data h => exact .srcWritten hidle off data _ _ (.inl ⟨hi, (inSrc_iff _ off (by omega)).1 h⟩) rfl
  | srcWord off data _ h => exact .srcWritten hidle off data _ _ (.inr ⟨hi, (inSrc_iff _ off (by omega)).1 h⟩) rfl

/-- A transaction that the host issues is one of the events. -/
theorem blockEvent_of_issues {s t : State} {i : Instr} (hi : Issues s i) (hx : exec i s.takeTurn = .next t) :
    BlockEvent s t.block := by
  obtain ⟨r, h⟩ | h | ⟨f, hf, h⟩ := exec_cases i s.takeTurn
  · rw [h] at hx
    cases hx
    exact .unchanged hi.1 rfl
  · rw [h] at hx
    cases hx
    exact .unchanged hi.1 rfl
  · rw [h] at hx
    cases hx
    show BlockEvent s (s.block.writeUnlessBusy f)
    cases hbusy : s.block.busy with
    | true =>
      rw [BlockState.writeUnlessBusy_of_busy hbusy]
      exact .ignored hbusy i hi hf.isWrite hf.permitted rfl
    | false =>
      rw [BlockState.writeUnlessBusy_of_idle hbusy]
      exact blockEvent_of_idle_write hbusy hi hf

/-- Every step is one of the block's events. -/
theorem blockEvent_of_step {s t : State} (h : step s = .next t) : BlockEvent s t.block := by
  obtain ⟨-, ⟨hm, rfl⟩ | ⟨hm, hbusy, rfl⟩ | ⟨hm, hh⟩⟩ := step_cases h
  · exact .reset hm rfl
  · obtain ⟨code, i, hb⟩ | ⟨out, hb⟩ := completeCommand_cases s.params s.block s.draws
    · exact .failed hm hbusy code i hb
    · exact .succeeded hm hbusy out hb
  · obtain ⟨-, rfl⟩ | ⟨hs, ⟨x, hf, hx⟩ | ⟨_, _, -, rfl⟩ | ⟨_, _, -, rfl⟩ | ⟨-, rfl⟩⟩ := hostStep_cases hh
    · exact .unchanged hm rfl
    · exact blockEvent_of_issues ⟨hm, hs, x, hf, rfl⟩ hx
    · exact .unchanged hm rfl
    · exact .unchanged hm rfl
    · exact .unchanged hm rfl

/-! ### The flags along an event -/

theorem BlockEvent.busy_rises {s : State} {b : BlockState} (e : BlockEvent s b) (hs : s.block.busy = false)
    (hb : b.busy = true) : ∃ w ∈ dataWords, Issues s (.w32 0x0 w) := by
  cases e with
  | accepted _ w hw hi => exact ⟨w, hw, hi⟩
  | _ => simp_all

theorem BlockEvent.busy_falls {s : State} {b : BlockState} (e : BlockEvent s b) (hs : s.block.busy = true)
    (hb : b.busy = false) : s.mover = .block ∨ s.mover = .reset := by
  cases e with
  | reset hm => exact .inr hm
  | failed hm | succeeded hm => exact .inl hm
  | _ => simp_all

/-- The invariant gives ERR = 0 while the command runs, which a successful completion keeps (R31). -/
theorem BlockEvent.done_rises {s : State} {b : BlockState} (e : BlockEvent s b) (hinv : s.block.StatusInv)
    (hs : s.block.done = false) (hb : b.done = true) : s.mover = .block ∧ b.err = false := by
  cases e with
  | succeeded hm hbusy out h => exact ⟨hm, by rw [h]; exact (hinv.1 hbusy).2.1⟩
  | _ => simp_all

/-- The invariant gives DONE = 0 while a command runs, so no failing completion clears it (R31). -/
theorem BlockEvent.done_falls {s : State} {b : BlockState} (e : BlockEvent s b) (hinv : s.block.StatusInv)
    (hs : s.block.done = true) (hb : b.done = false) :
    s.mover = .reset ∨ (s.block.busy = false ∧ ∃ w, Issues s (.w32 0x0 w) ∧ w ≠ 0x0) := by
  cases e with
  | reset hm => exact .inl hm
  | failed _ hbusy => simp [(hinv.1 hbusy).1] at hs
  | accepted hidle w hw hi => exact .inr ⟨hidle, w, hi, by rintro rfl; revert hw; decide⟩
  | cleared hidle hi => exact .inr ⟨hidle, 0x3, hi, by decide⟩
  | reserved hidle w r hw hi => exact .inr ⟨hidle, w, hi, by rintro rfl; cases hw⟩
  | _ => simp_all

theorem BlockEvent.err_rises {s : State} {b : BlockState} (e : BlockEvent s b) (hs : s.block.err = false)
    (hb : b.err = true) :
    (s.mover = .block ∨ ∃ w r, Issues s (.w32 0x0 w) ∧ decode (.cmd w) = .error r) ∧
      ∃ code index, b = s.block.opError code index := by
  cases e with
  | failed hm _ code index h => exact ⟨.inl hm, code, index, h⟩
  | reserved _ w r hw hi h => exact ⟨.inr ⟨w, r, hi, hw⟩, _, _, h⟩
  | _ => simp_all

theorem BlockEvent.err_falls {s : State} {b : BlockState} (e : BlockEvent s b) (hs : s.block.err = true)
    (hb : b.err = false) : s.mover = .reset ∨ ∃ w, Issues s (.w32 0x0 w) ∧ (w ∈ dataWords ∨ w = 0x3) := by
  cases e with
  | reset hm => exact .inl hm
  | accepted _ w hw hi => exact .inr ⟨w, hi, .inl hw⟩
  | cleared _ hi => exact .inr ⟨0x3, hi, .inr rfl⟩
  | _ => simp_all

theorem BlockEvent.ovr_rises {s : State} {b : BlockState} (e : BlockEvent s b) (hs : s.block.ovr = false)
    (hb : b.ovr = true) : s.block.busy = true ∧ ∃ i, Issues s i ∧ IsWrite i ∧ Permitted s.params i := by
  cases e with
  | ignored hbusy i hi hw hp => exact ⟨hbusy, i, hi, hw, hp⟩
  | _ => simp_all

theorem BlockEvent.ovr_falls {s : State} {b : BlockState} (e : BlockEvent s b) (hs : s.block.ovr = true)
    (hb : b.ovr = false) :
    s.mover = .reset ∨ (s.block.busy = false ∧ ∃ w, Issues s (.w32 0x0 w) ∧ (w ∈ dataWords ∨ w = 0x3)) := by
  cases e with
  | reset hm => exact .inl hm
  | accepted hidle w hw hi => exact .inr ⟨hidle, w, hi, .inl hw⟩
  | cleared hidle hi => exact .inr ⟨hidle, 0x3, hi, .inr rfl⟩
  | _ => simp_all

/-- On the idle block the words of the data commands and of CLRSTAT clear DONE, ERR and OVR (R192, R195). -/
theorem clears_of_issues {s t : State} {w : Word} (h : step s = .next t) (hidle : s.block.busy = false)
    (hi : Issues s (.w32 0x0 w)) (hw : w ∈ dataWords ∨ w = 0x3) :
    t.block.done = false ∧ t.block.err = false ∧ t.block.ovr = false := by
  obtain ⟨c, hc, hne⟩ := decodeCmd_clearing hw
  rw [block_of_issues_command h hidle hi hc]
  exact commandEffect_clears hne s.block

/-- On the idle block every word but NOP clears DONE, the reserved words included (R26). -/
theorem done_cleared_of_issues {s t : State} {w : Word} (h : step s = .next t) (hidle : s.block.busy = false)
    (hi : Issues s (.w32 0x0 w)) (hw : w ≠ 0x0) : t.block.done = false := by
  cases hc : decodeCmd w with
  | ok c =>
    have hne : c ≠ .nop := by
      rintro rfl
      exact hw (decodeCmd_nop hc)
    rw [block_of_issues_command h hidle hi hc]
    exact (commandEffect_clears hne s.block).1
  | error r => rw [block_of_issues_reserved h hidle hi hc, BlockState.opError_done]

end Sys2Proof.Machine
end

section
/-! The obligations of the state family. -/

namespace Sys2Proof.Proofs

open Sys2Proof.Machine Sys2Proof.Claims

/-- Settles O25: each register's R32 by its own rule, and STATUS bit by bit. -/
theorem registerReads : Obligations.RegisterReads := by
  unfold Obligations.RegisterReads
  intro s hp
  obtain ⟨-, hsrc, -, hdst⟩ := hp
  refine ⟨⟨_, exec_r32_status s, ?_⟩, exec_r32_srcLen s,
    fun hidle => ⟨exec_r32_dstLen_idle hidle, exec_r32_errIndex_idle hidle⟩,
    ⟨_, exec_r32_srcCap s, toNat_ofNat_depth hsrc⟩, ⟨_, exec_r32_dstCap s, toNat_ofNat_depth hdst⟩⟩
  have hbit := s.block.statusWord_getLsbD
  exact ⟨hbit 0, hbit 1, hbit 2, hbit 3, s.block.statusWord_errcode, s.block.statusWord_bits_7_4,
    s.block.statusWord_bits_31_12⟩

/-- Settles O31: the write goes through the busy hazard, and no command's effect and no completion's outcome touches SRC_LEN. -/
theorem srcLenWritesAndReadsBack : Obligations.SrcLenWritesAndReadsBack := by
  unfold Obligations.SrcLenWritesAndReadsBack
  intro v s
  have hexec : exec (.w32 0x8 v) s = answerWrite (BlockState.setSrcLen v) s := exec_hostWrite (.srcLen v)
  refine ⟨fun hidle => ?_, fun hidle t ht => ?_, fun hbusy => ?_, fun hp hm hlen => ?_, fun i t hi ht => ?_,
    fun t hm ht => ?_⟩
  · rw [hexec, answerWrite_idle hidle]
    rfl
  · rw [hexec, answerWrite_idle hidle] at ht
    cases ht
    exact exec_r32_srcLen _
  · rw [hexec, answerWrite_busy hbusy]
    rfl
  · refine ⟨_, step_block hp hm, ?_⟩
    rw [blockStep_block, State.takeTurn_params, State.takeTurn_block, completeCommand_lenRange hlen]
    rfl
  · obtain ⟨c, rfl⟩ := exists_command_of_mem hi
    rw [exec_command] at ht
    cases ht
    cases hbusy : s.block.busy with
    | true => simp [BlockState.writeUnlessBusy_of_busy hbusy]
    | false => simp [BlockState.writeUnlessBusy_of_idle hbusy]
  · rw [block_of_mover_block ht hm, completeCommand_srcLen]

/-- Settles O48, over the events a step can be to the block. -/
theorem busyChangesOnlyByAcceptanceAndCompletion : Obligations.BusyChangesOnlyByAcceptanceAndCompletion := by
  unfold Obligations.BusyChangesOnlyByAcceptanceAndCompletion
  intro s t h
  exact ⟨(blockEvent_of_step h).busy_rises, (blockEvent_of_step h).busy_falls⟩

/-- Settles O49, over the events, with R31's invariant for the completions. -/
theorem doneChangesOnlyAsStated : Obligations.DoneChangesOnlyAsStated := by
  unfold Obligations.DoneChangesOnlyAsStated
  intro s t hinv h
  refine ⟨(blockEvent_of_step h).done_rises hinv.status, (blockEvent_of_step h).done_falls hinv.status,
    fun hidle w => done_cleared_of_issues h hidle, fun hm => ?_⟩
  rw [block_of_mover_reset h hm, BlockState.reset_done]

/-- Settles O50: ERR rises by `opError` alone, which fixes the other fields. -/
theorem errChangesOnlyAsStated : Obligations.ErrChangesOnlyAsStated := by
  unfold Obligations.ErrChangesOnlyAsStated
  intro s t h
  refine ⟨fun hs ht => ?_, (blockEvent_of_step h).err_falls, fun hidle w hi hw => (clears_of_issues h hidle hi hw).2.1,
    fun hm => ?_⟩
  · obtain ⟨hcause, code, index, hb⟩ := (blockEvent_of_step h).err_rises hs ht
    rw [hb]
    exact ⟨hcause, rfl, rfl, rfl, code.code_range⟩
  · rw [block_of_mover_reset h hm, BlockState.reset_err]

/-- Settles O51: OVR is set by `setOvr` alone, and a completion leaves it. -/
theorem ovrChangesOnlyAsStated : Obligations.OvrChangesOnlyAsStated := by
  unfold Obligations.OvrChangesOnlyAsStated
  intro s t h
  refine ⟨(blockEvent_of_step h).ovr_rises, (blockEvent_of_step h).ovr_falls, fun hbusy i hi hw hp => ?_,
    fun hidle w hi hw => (clears_of_issues h hidle hi hw).2.2, fun hm => ?_, fun hm => ?_⟩
  · obtain ⟨f, hf⟩ := exists_hostWrite hw hp
    rw [block_of_issues_hostWrite h hi hf, BlockState.writeUnlessBusy_of_busy hbusy, BlockState.setOvr_ovr]
  · rw [block_of_mover_reset h hm, BlockState.reset_ovr]
  · rw [block_of_mover_block h hm, completeCommand_ovr]

end Sys2Proof.Proofs
end

/-! ## The memory family: what a read answers, which accesses are permitted, and the byte order of a word (R62, R63, R65, R68) -/

section
/-! SUPPORT. What R8 and R32 answer, window by window, and what a transaction that the table of R62 does not list does. -/

namespace Sys2Proof.Machine

open Sys2Proof.Claims

/-! ### `MemRead` (R11, R210, R212) -/

theorem memRead8_src {off : Word} {s : State} (h : InSrc s.params off 1) :
    memRead8 off s = some (rd s.block.src (off.toNat - 0x10000) s.draws) := if_pos ((inSrc_iff _ _ (by omega)).2 h)

/-- SRC ends at or before the base of DST, since SRC_DEPTH is at most 65536 (R7). -/
theorem not_inSrc_of_dstBase_le {p : Config.Params} {off : Word} {w : Nat} (hp : p.Wf) (hw : 1 ≤ w)
    (h : 0x20000 ≤ off.toNat) : ¬ inSrc p off w = true := by
  obtain ⟨-, hsrc, -, -⟩ := hp
  rw [inSrc_iff p off hw]
  omega

theorem memRead8_dst {off : Word} {s : State} (hp : s.params.Wf) (h : InDst s.params off 1) :
    memRead8 off s = some (rdDst s.block (off.toNat - 0x20000) s.draws) := by
  unfold memRead8
  rw [if_neg (not_inSrc_of_dstBase_le hp (by omega) h.1), if_pos ((inDst_iff _ _ (by omega)).2 h)]
  rfl

theorem memRead8_cases {off : Word} {s : State} {r : Byte × Nat} (h : memRead8 off s = some r) :
    (InSrc s.params off 1 ∧ r = rd s.block.src (off.toNat - 0x10000) s.draws) ∨
    (InDst s.params off 1 ∧ r = rdDst s.block (off.toNat - 0x20000) s.draws) := by
  unfold memRead8 at h
  split at h
  next hin => exact .inl ⟨(inSrc_iff _ _ (by omega)).1 hin, (Option.some.inj h).symm⟩
  next =>
    split at h
    next hin => exact .inr ⟨(inDst_iff _ _ (by omega)).1 hin, (Option.some.inj h).symm⟩
    next => cases h

/-- No register lies at or above the base of SRC (R22). -/
theorem memRead32_of_srcBase_le {off : Word} (h : 0x10000 ≤ off.toNat) (s : State) :
    memRead32 off s =
      if inSrc s.params off 4 then some (read4 (rd s.block.src) (off.toNat - 0x10000) s.draws)
      else if inDst s.params off 4 then some (read4 (rdDst s.block) (off.toNat - 0x20000) s.draws)
      else none := by
  have hne : ∀ k : Word, k.toNat < 0x10000 → off ≠ k := by
    rintro k hk rfl
    omega
  unfold memRead32
  rw [if_neg (hne offStatus (by decide)), if_neg (hne offSrcLen (by decide)), if_neg (hne offDstLen (by decide)),
    if_neg (hne offErrIndex (by decide)), if_neg (hne offSrcCap (by decide)), if_neg (hne offDstCap (by decide))]
  rfl

theorem memRead32_src {off : Word} {s : State} (h : InSrc s.params off 4) :
    memRead32 off s = some (read4 (rd s.block.src) (off.toNat - 0x10000) s.draws) := by
  rw [memRead32_of_srcBase_le h.1, if_pos ((inSrc_iff _ _ (by omega)).2 h)]

theorem memRead32_dst {off : Word} {s : State} (hp : s.params.Wf) (h : InDst s.params off 4) :
    memRead32 off s = some (read4 (rdDst s.block) (off.toNat - 0x20000) s.draws) := by
  rw [memRead32_of_srcBase_le (Nat.le_trans (by omega) h.1), if_neg (not_inSrc_of_dstBase_le hp (by omega) h.1),
    if_pos ((inDst_iff _ _ (by omega)).2 h)]

/-- A word read is of a register, which draws only for an output while BUSY = 1, or of a buffer. -/
theorem memRead32_cases {off : Word} {s : State} {r : Word × Nat} (h : memRead32 off s = some r) :
    ((off = 0x4 ∨ off = 0x8 ∨ off = 0x14 ∨ off = 0x18) ∧ r.2 = s.draws) ∨
    ((off = 0xC ∨ off = 0x10) ∧ (s.block.busy = false → r.2 = s.draws)) ∨
    (InSrc s.params off 4 ∧ r = read4 (rd s.block.src) (off.toNat - 0x10000) s.draws) ∨
    (InDst s.params off 4 ∧ r = read4 (rdDst s.block) (off.toNat - 0x20000) s.draws) := by
  have output : ∀ v : Word, some (if s.block.busy then draw32 s.draws else (v, s.draws)) = some r →
      s.block.busy = false → r.2 = s.draws := by
    intro v hv hidle
    rw [hidle] at hv
    cases hv
    rfl
  unfold memRead32 at h
  split at h
  next hoff => cases h; exact .inl ⟨.inl hoff, rfl⟩
  next =>
  split at h
  next hoff => cases h; exact .inl ⟨.inr (.inl hoff), rfl⟩
  next =>
  split at h
  next hoff => exact .inr (.inl ⟨.inl hoff, output _ h⟩)
  next =>
  split at h
  next hoff => exact .inr (.inl ⟨.inr hoff, output _ h⟩)
  next =>
  split at h
  next hoff => cases h; exact .inl ⟨.inr (.inr (.inl hoff)), rfl⟩
  next =>
  split at h
  next hoff => cases h; exact .inl ⟨.inr (.inr (.inr hoff)), rfl⟩
  next =>
  split at h
  next hin => exact .inr (.inr (.inl ⟨(inSrc_iff _ _ (by omega)).1 hin, (Option.some.inj h).symm⟩))
  next =>
  split at h
  next hin => exact .inr (.inr (.inr ⟨(inDst_iff _ _ (by omega)).1 hin, (Option.some.inj h).symm⟩))
  next => cases h

/-! ### Reads that take no draw (R40) -/

theorem rd_draws_of_written {m : Memory} {i : Nat} (h : m.cell i ≠ none) (d : Nat) : (rd m i d).2 = d := by
  obtain ⟨v, hv⟩ := Option.ne_none_iff_exists'.1 h
  rw [rd_written hv]

/-- Four byte reads that each leave the draw counter join to their bytes, lowest offset first. -/
theorem read4_of_no_draws {byte : Nat → Nat → Byte × Nat} {i d : Nat} (h : ∀ k, k < 4 → (byte (i + k) d).2 = d) :
    read4 byte i d = (le32 (byte i d).1 (byte (i + 1) d).1 (byte (i + 2) d).1 (byte (i + 3) d).1, d) := by
  have h0 : (byte i d).2 = d := h 0 (by omega)
  simp only [read4, h0, h 1 (by omega), h 2 (by omega), h 3 (by omega)]

/-- Four written cells are read as they are. -/
theorem read4_rd_written {m : Memory} {i : Nat} {x0 x1 x2 x3 : Byte} (h0 : m.cell i = some x0)
    (h1 : m.cell (i + 1) = some x1) (h2 : m.cell (i + 2) = some x2) (h3 : m.cell (i + 3) = some x3) (d : Nat) :
    read4 (rd m) i d = (le32 x0 x1 x2 x3, d) := by
  simp only [read4, rd_written h0, rd_written h1, rd_written h2, rd_written h3]

theorem rdDst_eq_rd {b : BlockState} (h : b.busy = false) : rdDst b = rd b.dst :=
  funext fun i => funext fun d => rdDst_idle h i d

/-- A byte read to which none of the exceptions of R68 applies takes no draw. -/
theorem memRead8_draws {off : Word} {s : State} {r : Byte × Nat} (hx : ReadsExactly s off 1)
    (h : memRead8 off s = some r) : r.2 = s.draws := by
  obtain ⟨hsrc, hdst, -⟩ := hx
  obtain ⟨hin, rfl⟩ | ⟨hin, rfl⟩ := memRead8_cases h
  · exact rd_draws_of_written (by simpa using hsrc hin 0 (by omega)) _
  · obtain ⟨hidle, hcell⟩ := hdst hin
    rw [rdDst_idle hidle]
    exact rd_draws_of_written (by simpa using hcell 0 (by omega)) _

/-- A word read to which none of the exceptions of R68 applies takes no draw. -/
theorem memRead32_draws {off : Word} {s : State} {r : Word × Nat} (hx : ReadsExactly s off 4)
    (h : memRead32 off s = some r) : r.2 = s.draws := by
  obtain ⟨hsrc, hdst, hout⟩ := hx
  obtain ⟨-, hr⟩ | ⟨hoff, hr⟩ | ⟨hin, rfl⟩ | ⟨hin, rfl⟩ := memRead32_cases h
  · exact hr
  · exact hr (hout hoff)
  · rw [read4_of_no_draws fun k hk => rd_draws_of_written (hsrc hin k hk) _]
  · obtain ⟨hidle, hcell⟩ := hdst hin
    rw [rdDst_eq_rd hidle, read4_of_no_draws fun k hk => rd_draws_of_written (hcell k hk) _]

/-! ### Both reads at once -/

theorem not_isWrite_r8 (off : Word) : ¬ IsWrite (.r8 off) := id

theorem not_isWrite_r32 (off : Word) : ¬ IsWrite (.r32 off) := id

/-- What a read answers, and the draw count after it; none is BUS_ERROR. -/
def readResult (s : State) : Instr → Option (Word × Nat)
  | .r8 off => (memRead8 off s).map fun r => (zextByte r.1, r.2)
  | .r32 off => if aligned off then memRead32 off s else none
  | .nop | .encStd | .decStd | .clrstat | .encUrl | .decUrl | .w8 _ _ | .w32 _ _ => none

/-- R8 and R32 answer their `readResult`. -/
theorem exec_read {i : Instr} (hi : ¬ IsWrite i) (s : State) :
    exec i s = (readResult s i).elim (busError s) (answerRead · s) := by
  cases i with
  | r8 off =>
    simp only [exec, execR8, readResult]
    cases memRead8 off s <;> rfl
  | r32 off =>
    simp only [exec, execR32, readResult]
    split
    · cases memRead32 off s <;> rfl
    · rfl
  | nop | encStd | decStd | clrstat | encUrl | decUrl | w8 | w32 => exact absurd trivial hi

theorem exec_read_some {i : Instr} {s : State} {r : Word × Nat} (hi : ¬ IsWrite i) (h : readResult s i = some r) :
    exec i s = answerRead r s := by
  rw [exec_read hi, h]
  rfl

theorem exec_read_none {i : Instr} {s : State} (hi : ¬ IsWrite i) (h : readResult s i = none) :
    exec i s = busError s := by
  rw [exec_read hi, h]
  rfl

theorem readResult_r32_aligned {off : Word} (ha : off.toNat % 4 = 0) (s : State) :
    readResult s (.r32 off) = memRead32 off s := if_pos ((aligned_iff off).2 ha)

/-- Only the accesses of R62 answer a read. -/
theorem permitted_of_readResult {i : Instr} {s : State} {r : Word × Nat} (h : readResult s i = some r) :
    Permitted s.params i := by
  cases i with
  | r8 off =>
    obtain ⟨r', hr', -⟩ := Option.map_eq_some_iff.1 h
    exact (memRead8_cases hr').imp And.left And.left
  | r32 off =>
    simp only [readResult, Option.ite_none_right_eq_some] at h
    obtain ⟨ha, h⟩ := h
    have ha := (aligned_iff off).1 ha
    obtain ⟨hoff, -⟩ | ⟨hoff, -⟩ | ⟨hin, -⟩ | ⟨hin, -⟩ := memRead32_cases h
    · exact .inl (by tauto)
    · exact .inl (by tauto)
    · exact .inr ⟨ha, .inl hin⟩
    · exact .inr ⟨ha, .inr hin⟩
  | nop | encStd | decStd | clrstat | encUrl | decUrl | w8 | w32 => cases h

/-- Every read that R62 lists is answered. -/
theorem exists_readResult {i : Instr} {s : State} (hs : s.params.Wf) (hi : ¬ IsWrite i) (hp : Permitted s.params i) :
    ∃ r, readResult s i = some r := by
  cases i with
  | r8 off =>
    obtain hin | hin := hp
    · exact ⟨_, Option.map_eq_some_iff.2 ⟨_, memRead8_src hin, rfl⟩⟩
    · exact ⟨_, Option.map_eq_some_iff.2 ⟨_, memRead8_dst hs hin, rfl⟩⟩
  | r32 off =>
    obtain (rfl | rfl | rfl | rfl | rfl | rfl) | ⟨ha, hin | hin⟩ := hp
    iterate 6 exact ⟨_, rfl⟩
    · exact ⟨_, (readResult_r32_aligned ha s).trans (memRead32_src hin)⟩
    · exact ⟨_, (readResult_r32_aligned ha s).trans (memRead32_dst hs hin)⟩
  | nop | encStd | decStd | clrstat | encUrl | decUrl | w8 | w32 => exact absurd trivial hi

/-- A read to which none of the exceptions of R68 applies takes no draw. -/
theorem readResult_draws {off : Word} {i : Instr} {w : Nat} {s : State} {r : Word × Nat}
    (hi : i = .r8 off ∧ w = 1 ∨ i = .r32 off ∧ w = 4) (hx : ReadsExactly s off w) (h : readResult s i = some r) :
    r.2 = s.draws := by
  obtain ⟨rfl, rfl⟩ | ⟨rfl, rfl⟩ := hi
  · obtain ⟨r', hr', rfl⟩ := Option.map_eq_some_iff.1 h
    exact memRead8_draws hx hr'
  · simp only [readResult, Option.ite_none_right_eq_some] at h
    exact memRead32_draws hx h.2

/-- A read's answer does not depend on the host. -/
theorem readResult_host (s : State) (h : HostAgent) (i : Instr) : readResult { s with host := h } i = readResult s i := by
  cases i <;> rfl

/-! ### The accesses that R62 does not list (R65) -/

/-- A transaction that R62 does not list is a bus error. -/
theorem exec_of_not_permitted {i : Instr} {s : State} (hp : ¬ Permitted s.params i) : exec i s = busError s := by
  cases i with
  | r8 off | r32 off =>
    refine exec_read_none id (Option.eq_none_iff_forall_ne_some.2 fun r hr => ?_)
    exact hp (permitted_of_readResult hr)
  | w8 off data => exact if_neg fun hin => hp (HostWrite.srcByte off data hin).permitted
  | w32 off data =>
    simp only [exec, execW32]
    split
    next ha =>
      have hcmd : off ≠ offCmd := fun h => hp (.inl h)
      have hlen : off ≠ offSrcLen := fun h => hp (.inr (.inl h))
      rw [if_neg hcmd, if_neg hlen, if_neg fun hin => hp (HostWrite.srcWord off data ha hin).permitted]
    next => rfl
  | nop | encStd | decStd | clrstat | encUrl | decUrl => exact absurd trivial hp

/-- A register that R32 reads sits at an aligned offset from 4 up to below 0x1C (R22). -/
theorem permitted_r32_iff (p : Config.Params) (off : Word) :
    Permitted p (.r32 off) ↔
      off.toNat % 4 = 0 ∧ (4 ≤ off.toNat ∧ off.toNat < 0x1C ∨ InSrc p off 4 ∨ InDst p off 4) := by
  simp only [Permitted, ← BitVec.toNat_inj, BitVec.reduceToNat]
  omega

theorem permitted_w32_iff (p : Config.Params) (off data : Word) :
    Permitted p (.w32 off data) ↔ off.toNat % 4 = 0 ∧ (off.toNat = 0 ∨ off.toNat = 8 ∨ InSrc p off 4) := by
  simp only [Permitted, ← BitVec.toNat_inj, BitVec.reduceToNat]
  omega

/-! ### A word written to SRC (R63, R213) -/

/-- A word's lanes go to its four cells in rising order. -/
theorem Memory.cell_writeAll_byteLanes (m : Memory) (i : Nat) (data : Word) (j : Nat) :
    (m.writeAll i (byteLanes data)).cell j =
      if j = i then some (byteLane data 0)
      else if j = i + 1 then some (byteLane data 1)
      else if j = i + 2 then some (byteLane data 2)
      else if j = i + 3 then some (byteLane data 3)
      else m.cell j := by
  simp only [byteLanes, Memory.writeAll, Memory.cell_write]
  grind

end Sys2Proof.Machine
end

section
/-! The obligations of the memory family. -/

namespace Sys2Proof.Proofs

open Sys2Proof.Machine Sys2Proof.Claims

/-- Settles O27: a read joins its four cells by `le32`, and a write gives each cell its lane. -/
theorem bufferWordsLittleEndian : Obligations.BufferWordsLittleEndian := by
  unfold Obligations.BufferWordsLittleEndian
  intro off s x0 x1 x2 x3 hp ha
  have reads : memRead32 off s = some (le32 x0 x1 x2 x3, s.draws) →
      ∃ v, exec (.r32 off) s = .next (afterRead s v s.draws) ∧
        v.toNat = x0.toNat + x1.toNat * 2 ^ 8 + x2.toNat * 2 ^ 16 + x3.toNat * 2 ^ 24 := fun h =>
    ⟨_, exec_read_some (not_isWrite_r32 off) ((readResult_r32_aligned ha s).trans h), le32_toNat x0 x1 x2 x3⟩
  refine ⟨fun hin ⟨h0, h1, h2, h3⟩ => reads ?_, fun hin hidle ⟨h0, h1, h2, h3⟩ => reads ?_, fun hin hidle data => ?_⟩
  · rw [memRead32_src hin, read4_rd_written h0 h1 h2 h3]
  · rw [memRead32_dst hp hin, rdDst_eq_rd hidle, read4_rd_written h0 h1 h2 h3]
  · have hw : HostWrite s.params (.w32 off data) (BlockState.writeSrc (srcPos off) (byteLanes data)) :=
      .srcWord off data ((aligned_iff off).2 ha) ((inSrc_iff _ off (by omega)).2 hin)
    exact ⟨_, (exec_hostWrite hw).trans (answerWrite_idle hidle),
      Memory.cell_writeAll_byteLanes s.block.src (off.toNat - 0x10000) data⟩

/-- Settles O29: a read changes the host and the draw counter alone, and where it takes no draw the second read meets the same
block and the same count. -/
theorem readsHaveNoSideEffects : Obligations.ReadsHaveNoSideEffects := by
  unfold Obligations.ReadsHaveNoSideEffects
  intro off i w s t _ hi ht
  have hread : ¬ IsWrite i := by
    obtain ⟨rfl, -⟩ | ⟨rfl, -⟩ := hi
    · exact not_isWrite_r8 off
    · exact not_isWrite_r32 off
  cases hr : readResult s i with
  | none =>
    rw [exec_read_none hread hr] at ht
    cases ht
    refine ⟨rfl, rfl, rfl, rfl, fun _ u hu => ?_⟩
    rw [exec_read_none hread ((readResult_host s _ i).trans hr)] at hu
    cases hu
    exact ⟨rfl, rfl, rfl⟩
  | some r =>
    obtain ⟨v, d⟩ := r
    rw [exec_read_some hread hr] at ht
    cases ht
    refine ⟨rfl, rfl, rfl, rfl, fun hx u hu => ?_⟩
    obtain rfl : d = s.draws := readResult_draws hi hx hr
    rw [exec_read_some hread ((readResult_host s _ i).trans hr)] at hu
    cases hu
    exact ⟨rfl, rfl, rfl⟩

/-- Settles O33: a listed write goes through the busy hazard, a listed read has its result, and every other access is a bus
error. -/
theorem accessPermissions : Obligations.AccessPermissions := by
  unfold Obligations.AccessPermissions
  intro i s hs
  refine ⟨fun hp => ?_, exec_of_not_permitted⟩
  by_cases hw : IsWrite i
  · obtain ⟨f, hf⟩ := exists_hostWrite hw hp
    exact ⟨_, exec_hostWrite hf, rfl, rfl, fun _ => rfl, fun h => absurd hw h⟩
  · obtain ⟨r, hr⟩ := exists_readResult hs hw hp
    exact ⟨_, exec_read_some hw hr, rfl, rfl, fun h => absurd h hw, fun _ => ⟨r.1, rfl, rfl⟩⟩

/-- Settles O34: under each of the six conditions the access is not one that R62 lists. -/
theorem busErrorConditions : Obligations.BusErrorConditions := by
  unfold Obligations.BusErrorConditions
  intro off data s ⟨_, hsrc, _, _⟩
  have r8 (h : ¬ (InSrc s.params off 1 ∨ InDst s.params off 1)) : exec (.r8 off) s = .next (afterBusError s) :=
    exec_of_not_permitted h
  have w8 (h : ¬ InSrc s.params off 1) : exec (.w8 off data) s = .next (afterBusError s) := exec_of_not_permitted h
  have r32 := fun h => exec_of_not_permitted (s := s) (mt (permitted_r32_iff s.params off).1 h)
  have w32 := fun h => exec_of_not_permitted (s := s) (mt (permitted_w32_iff s.params off data).1 h)
  refine ⟨fun hres hs hd => ⟨⟨r8 (by omega), w8 hs⟩, r32 (by omega), w32 (by omega)⟩,
    fun hreg => ⟨r8 (by omega), w8 (by omega)⟩,
    fun hal => ⟨r32 (by omega), w32 (by omega)⟩,
    fun hin hpast => ⟨r32 (by omega), w32 (by omega)⟩,
    fun hin hpast => ⟨r32 (by omega), w32 (by omega)⟩,
    fun hro => w32 ?_,
    fun hin => ⟨w8 (by omega), w32 (by omega)⟩,
    exec_of_not_permitted (mt (permitted_r32_iff s.params 0x0).1 (by simp))⟩
  simp only [← BitVec.toNat_inj, BitVec.reduceToNat] at hro
  omega

end Sys2Proof.Proofs
end

/-! ## The encoding family: the command words, the alphabets and written programs (R93, R100, R103, R109) -/

section
/-! SUPPORT. What the decoder answers for a command word, and the alphabets as tables. -/

namespace Sys2Proof

/-- A command word decodes to its command's row. -/
theorem decode_cmd_eq_ok_iff {w : Word} {i : Instr} :
    decode (.cmd w) = .ok i ↔ ∃ c, decodeCmd w = .ok c ∧ c.instr = i := by
  rw [decode_cmd]
  cases decodeCmd w <;> simp [Except.map]

end Sys2Proof

namespace Sys2Proof.Machine

open Sys2Proof.Claims

/-- The symbols of R100 in order, by their ASCII codes, are what `alpha` gives for the indices 0 to 63. -/
theorem symbols_codes (a : Alphabet) :
    (symbols a).toList.map Char.toNat = (List.range 64).map fun i => (alpha a (BitVec.ofNat 6 i)).toNat := by
  cases a <;> decide

theorem symbols_length (a : Alphabet) : (symbols a).toList.length = 64 := by
  simpa using congrArg List.length (symbols_codes a)

theorem symbols_getElem?_code (a : Alphabet) (i : Sextet) :
    ((symbols a).toList[i.toNat]?).map Char.toNat = some (alpha a i).toNat := by
  rw [← List.getElem?_map, symbols_codes, List.getElem?_map, List.getElem?_range i.isLt]
  simp

/-- The letters and digits do not depend on the alphabet (R103). -/
theorem alpha_std_eq_url {i : Sextet} (h : i.toNat ≤ 61) : alpha .std i = alpha .url i := by
  simp only [alpha, if_pos h]

end Sys2Proof.Machine
end

section
/-! SUPPORT. Written programs: how many statements a line gives, what its loads expand to, and that a program's expansion
is cut where its lines are. -/

namespace Sys2Proof.Machine

/-! ### Loads (R109) -/

@[simp] theorem expandLoad_length (bytes : List Byte) : (expandLoad bytes).length = bytes.length + 1 := by
  simp [expandLoad]

theorem expandLoad_getElem?_byte {bytes : List Byte} {i : Nat} (hi : i < bytes.length) :
    (expandLoad bytes)[i]? = some (stmtW8 (BitVec.ofNat 32 (srcBase + i)) bytes[i]) := by
  rw [expandLoad, List.getElem?_append_left (by simpa using hi)]
  simp [hi]

theorem expandLoad_getElem?_length (bytes : List Byte) :
    (expandLoad bytes)[bytes.length]? = some (stmtW32 offSrcLen (BitVec.ofNat 32 bytes.length)) := by
  simp [expandLoad]

theorem isAscii_iff (text : String) : isAscii text = true ↔ ∀ c ∈ text.toList, c.toNat < 128 := by
  simp [isAscii]

@[simp] theorem asciiBytes_length (text : String) : (asciiBytes text).length = text.toList.length := by
  simp [asciiBytes]

/-- An ASCII text's bytes are its characters' codes. -/
theorem asciiBytes_map_toNat {text : String} (h : ∀ c ∈ text.toList, c.toNat < 128) :
    (asciiBytes text).map BitVec.toNat = text.toList.map Char.toNat := by
  rw [asciiBytes, List.map_map]
  refine List.map_congr_left fun c hc => ?_
  have := h c hc
  rw [Function.comp_apply, BitVec.toNat_ofNat, Nat.mod_eq_of_lt (by omega)]

/-- LOAD of an ASCII text is LOADB of its codes. -/
theorem expandLine_load {text : String} (h : ∀ c ∈ text.toList, c.toNat < 128) (table : List (String × Nat)) (k : Nat) :
    expandLine table k (.load text) = .ok (expandLoad (asciiBytes text)) :=
  if_pos ((isAscii_iff text).2 h)

/-! ### Lines and programs (R108) -/

/-- A branch line gives its branch to the statement its label names. -/
theorem map_resolve_ok {table : List (String × Nat)} {name : String} {f : Nat → List Stmt} {here : List Stmt}
    (h : (resolve table name).map f = .ok here) : ∃ k, table.lookup name = some k ∧ here = f k := by
  unfold resolve at h
  cases hk : table.lookup name <;> rw [hk] at h <;> cases h
  exact ⟨_, rfl, rfl⟩

/-- A line expands to as many statements as `lineSize` says. -/
theorem expandLine_length {table : List (String × Nat)} {k : Nat} {line : SrcLine} {here : List Stmt}
    (h : expandLine table k line = .ok here) : here.length = lineSize line := by
  cases line with
  | bnz mask name | bz mask name =>
    obtain ⟨_, -, rfl⟩ := map_resolve_ok h
    rfl
  | load text =>
    rw [expandLine] at h
    split at h <;> cases h
    simp [lineSize]
  | loadb bytes =>
    cases h
    exact expandLoad_length bytes
  | r8 | r32 | w8 | w32 | label | halt | wait | run =>
    cases h
    rfl

theorem expandAll_cons_ok {table : List (String × Nat)} {k : Nat} {line : SrcLine} {rest : List SrcLine} {prog : List Stmt} :
    expandAll table k (line :: rest) = .ok prog ↔ ∃ here later, expandLine table k line = .ok here ∧
      expandAll table (k + lineSize line) rest = .ok later ∧ prog = here ++ later := by
  rw [expandAll]
  cases expandLine table k line <;> cases expandAll table (k + lineSize line) rest <;> simp [eq_comm]

/-- The expansion of lines in two parts: the second part's starts at the index after the first's last statement. -/
theorem expandAll_append_ok {table : List (String × Nat)} {xs ys : List SrcLine} {k : Nat} {prog : List Stmt}
    (h : expandAll table k (xs ++ ys) = .ok prog) : ∃ front back, prog = front ++ back ∧
      expandAll table k xs = .ok front ∧ expandAll table (k + front.length) ys = .ok back := by
  induction xs generalizing k prog with
  | nil => exact ⟨[], prog, rfl, rfl, h⟩
  | cons line xs ih =>
    obtain ⟨here, later, hline, hlater, rfl⟩ := expandAll_cons_ok.1 h
    obtain ⟨front, back, rfl, hfront, hback⟩ := ih hlater
    refine ⟨here ++ front, back, by simp, expandAll_cons_ok.2 ⟨here, front, hline, hfront, rfl⟩, ?_⟩
    rwa [List.length_append, expandLine_length hline, ← Nat.add_assoc]

/-- A program that is accepted is the expansion of its lines. -/
theorem expandAll_of_assemble {lines : List SrcLine} {prog : List Stmt} (h : assemble lines = .ok prog) :
    expandAll (labelTable 0 lines) 0 lines = .ok prog := by
  unfold assemble at h
  cases hp : labelProblem (programSize lines) (labelTable 0 lines) <;> simp only [hp] at h
  · exact h
  · cases h

theorem labelTable_singleton {line : SrcLine} (h : ∀ name, line ≠ .label name) (k : Nat) : labelTable k [line] = [] := by
  cases line with
  | label name => exact absurd rfl (h name)
  | r8 | r32 | w8 | w32 | bnz | bz | halt | wait | load | loadb | run => rfl

/-- A program of one line that is no label is that line's expansion. -/
theorem assemble_singleton {line : SrcLine} {here : List Stmt} (hl : ∀ name, line ≠ .label name)
    (h : expandLine [] 0 line = .ok here) : assemble [line] = .ok here := by
  have hall : expandAll [] 0 [line] = .ok here := expandAll_cons_ok.2 ⟨here, [], h, rfl, (List.append_nil here).symm⟩
  simpa [assemble, labelTable_singleton hl, labelProblem] using hall

end Sys2Proof.Machine
end

section
/-! The obligations of the encoding family. -/

namespace Sys2Proof.Proofs

open Sys2Proof.Machine Sys2Proof.Claims

/-- Settles O1: `decodeCmd_ok` names the six words, and each of them decodes to its row. -/
theorem commandWordsExactlySix : Obligations.CommandWordsExactlySix := by
  unfold Obligations.CommandWordsExactlySix
  intro w i
  constructor
  · intro h
    obtain ⟨c, hc, rfl⟩ := decode_cmd_eq_ok_iff.1 h
    obtain ⟨rfl, rfl⟩ | ⟨rfl, rfl⟩ | ⟨rfl, rfl⟩ | ⟨rfl, rfl⟩ | ⟨rfl, rfl⟩ | ⟨rfl, rfl⟩ := decodeCmd_ok hc <;>
      decide
  · rintro (⟨rfl, rfl⟩ | ⟨rfl, rfl⟩ | ⟨rfl, rfl⟩ | ⟨rfl, rfl⟩ | ⟨rfl, rfl⟩ | ⟨rfl, rfl⟩) <;> decide

/-- Settles O6: the table of codes read at each index, and the three ranges that both alphabets share. -/
theorem alphabetTables : Obligations.AlphabetTables := by
  unfold Obligations.AlphabetTables
  exact ⟨symbols_getElem?_code, symbols_length, rfl, fun _ => alpha_std_eq_url, rfl, rfl, rfl, rfl⟩

/-- Settles O59: the expansions line by line, and a program's expansion cut before and after one line. -/
theorem pseudoInstructionsExpand : Obligations.PseudoInstructionsExpand := by
  unfold Obligations.PseudoInstructionsExpand
  refine ⟨fun table k => ⟨rfl, fun w => rfl, fun bytes => ?_, fun text hascii => ?_, rfl⟩,
    fun pre line post prog h => ?_, fun line hline => ?_⟩
  · exact ⟨expandLoad bytes, rfl, expandLoad_length bytes, fun i hi => expandLoad_getElem?_byte hi,
      expandLoad_getElem?_length bytes⟩
  · exact ⟨asciiBytes text, asciiBytes_map_toNat hascii, expandLine_load hascii table k⟩
  · obtain ⟨front, rest, rfl, hfront, hrest⟩ := expandAll_append_ok (expandAll_of_assemble h)
    rw [Nat.zero_add] at hrest
    obtain ⟨here, back, hhere, hback, rfl⟩ := expandAll_cons_ok.1 hrest
    rw [← expandLine_length hhere] at hback
    exact ⟨front, here, back, (List.append_assoc ..).symm, hfront, hhere, hback⟩
  · obtain rfl | ⟨w, rfl⟩ | ⟨bytes, rfl⟩ | ⟨text, rfl, hascii⟩ := hline
    · exact ⟨_, rfl, assemble_singleton nofun rfl⟩
    · exact ⟨_, rfl, assemble_singleton nofun rfl⟩
    · exact ⟨_, rfl, assemble_singleton nofun rfl⟩
    · exact ⟨_, expandLine_load hascii [] 0, assemble_singleton nofun (expandLine_load hascii [] 0)⟩

end Sys2Proof.Proofs
end

/-! ## The encode family: ENCODE as a function of a byte sequence, and the completion of an encode command (R121 to R131) -/

section
/-! SUPPORT. The text of ENCODE: its length, its body and padding, and its groups. -/

namespace Sys2Proof.Machine

/-! ### Length (R127) -/

@[simp] theorem encodeText_length (a : Alphabet) (d : List Byte) : (encodeText a d).length = encodedLength d.length := by
  induction d using encodeText.induct with
  | case1 | case2 | case3 => simp [encodeText, encodedLength]
  | case4 b0 b1 b2 rest ih =>
    simp only [encodeText_three, List.length_append, encodeGroup_length, ih, encodedLength, List.length_cons]
    omega

/-! ### Body and padding (R128, R129) -/

/-- `(3 - n mod 3) mod 3`, how many of a last group's characters are `=` (R128). -/
def padCount (n : Nat) : Nat := (3 - n % 3) % 3

@[simp] theorem padCount_zero : padCount 0 = 0 := rfl

@[simp] theorem padCount_add_three (n : Nat) : padCount (n + 3) = padCount n := by
  simp [padCount]

/-- The characters of a list all stand in the alphabet. -/
def AllAlpha (a : Alphabet) (cs : List Byte) : Prop := ∀ c ∈ cs, ∃ i, c = alpha a i

theorem allAlpha_nil (a : Alphabet) : AllAlpha a [] := nofun

theorem allAlpha_alpha_cons {a : Alphabet} {cs : List Byte} (i : Sextet) (h : AllAlpha a cs) : AllAlpha a (alpha a i :: cs) :=
  List.forall_mem_cons.2 ⟨⟨i, rfl⟩, h⟩

theorem allAlpha_append {a : Alphabet} {xs ys : List Byte} (hx : AllAlpha a xs) (hy : AllAlpha a ys) : AllAlpha a (xs ++ ys) :=
  List.forall_mem_append.2 ⟨hx, hy⟩

theorem count_pad_of_allAlpha {a : Alphabet} {cs : List Byte} (h : AllAlpha a cs) : cs.count pad = 0 :=
  List.count_eq_zero.2 fun hpad => by
    obtain ⟨i, hi⟩ := h pad hpad
    exact alpha_ne_pad a i hi.symm

/-- A group of `k` bytes gives `k + 1` alphabet characters and then only `=` (R124). -/
theorem encodeGroup_body (a : Alphabet) (b0 b1 b2 : Byte) {k : Nat} (hk : k = 1 ∨ k = 2 ∨ k = 3) :
    ∃ body, encodeGroup a b0 b1 b2 k = body ++ List.replicate (padCount k) pad ∧ AllAlpha a body := by
  have two (i j : Sextet) : AllAlpha a [alpha a i, alpha a j] :=
    allAlpha_alpha_cons i (allAlpha_alpha_cons j (allAlpha_nil a))
  obtain rfl | rfl | rfl := hk
  · exact ⟨[_, _], rfl, two _ _⟩
  · exact ⟨[_, _, _], rfl, allAlpha_alpha_cons _ (two _ _)⟩
  · exact ⟨[_, _, _, _], rfl, allAlpha_append (two _ _) (two _ _)⟩

/-- Only the last group can be short, so a text is alphabet characters and then its padding. -/
theorem encodeText_body (a : Alphabet) (d : List Byte) :
    ∃ body, encodeText a d = body ++ List.replicate (padCount d.length) pad ∧ AllAlpha a body := by
  induction d using encodeText.induct with
  | case1 => exact ⟨[], rfl, allAlpha_nil a⟩
  | case2 b0 => exact encodeGroup_body a b0 0 0 (.inl rfl)
  | case3 b0 b1 => exact encodeGroup_body a b0 b1 0 (.inr (.inl rfl))
  | case4 b0 b1 b2 rest ih =>
    obtain ⟨front, hfront, hfrontAlpha⟩ := encodeGroup_body a b0 b1 b2 (k := 3) (.inr (.inr rfl))
    obtain ⟨body, hbody, hbodyAlpha⟩ := ih
    refine ⟨front ++ body, ?_, allAlpha_append hfrontAlpha hbodyAlpha⟩
    rw [encodeText_three, hfront, hbody]
    simp

/-- A character that is not `=` and stands for no index is in no text. -/
theorem not_mem_encodeText {a : Alphabet} {c : Byte} (hpad : c ≠ pad) (halpha : ∀ i, alpha a i ≠ c) (d : List Byte) :
    c ∉ encodeText a d := by
  obtain ⟨body, hbody, hbodyAlpha⟩ := encodeText_body a d
  rw [hbody, List.mem_append]
  rintro (hc | hc)
  · obtain ⟨i, hi⟩ := hbodyAlpha c hc
    exact halpha i hi.symm
  · exact hpad (List.eq_of_mem_replicate hc)

/-! ### Groups (R121, R124) -/

/-- The first group's text is that of the first three bytes. -/
theorem encodeText_take (a : Alphabet) (d : List Byte) : (encodeText a d).take 4 = encodeText a (d.take 3) := by
  cases d using encodeText.fun_cases <;> rfl

/-- The text after `g` groups is that of the bytes after them. -/
theorem encodeText_drop (a : Alphabet) (g : Nat) (d : List Byte) :
    (encodeText a d).drop (4 * g) = encodeText a (d.drop (3 * g)) := by
  induction d using encodeText.induct generalizing g with
  | case1 => simp [encodeText]
  | case2 | case3 =>
    cases g with
    | zero => rfl
    | succ g => simp [Nat.mul_succ, encodeText, encodeGroup]
  | case4 b0 b1 b2 rest ih =>
    cases g with
    | zero => rfl
    | succ g =>
      rw [encodeText_three, Nat.mul_succ, Nat.add_comm, ← List.drop_drop, List.drop_left' (encodeGroup_length ..), ih]
      rfl

theorem packBytes_toNat (b0 b1 b2 : Byte) :
    (packBytes b0 b1 b2).toNat = b0.toNat * 2 ^ 16 + b1.toNat * 2 ^ 8 + b2.toNat := by
  rw [packBytes, BitVec.toNat_append, ← Nat.shiftLeft_add_eq_or_of_lt b2.isLt, BitVec.toNat_append,
    ← Nat.shiftLeft_add_eq_or_of_lt b1.isLt, Nat.shiftLeft_eq, Nat.shiftLeft_eq]
  omega

/-- The index at bit `k` of the accumulator, in arithmetic. -/
theorem extractLsb'_packBytes (b0 b1 b2 : Byte) (k : Nat) :
    (packBytes b0 b1 b2).extractLsb' k 6 =
      BitVec.ofNat 6 ((b0.toNat * 2 ^ 16 + b1.toNat * 2 ^ 8 + b2.toNat) / 2 ^ k) := by
  rw [BitVec.extractLsb', packBytes_toNat, Nat.shiftRight_eq_div_pow]

end Sys2Proof.Machine
end

section
/-! SUPPORT. What a completion reads from SRC, writes to DST and leaves as the block. -/

namespace Sys2Proof.Machine

open Sys2Proof.Claims

/-- A range of written cells takes no draw. -/
theorem rdRange_draws_of_written {n : Nat} {m : Memory} {i : Nat} (h : ∀ k, k < n → m.cell (i + k) ≠ none) (d : Nat) :
    (rdRange m i n d).2 = d := by
  induction n generalizing i d with
  | zero => rfl
  | succ n ih =>
    have htail : ∀ k, k < n → m.cell (i + 1 + k) ≠ none := fun k hk => by
      rw [Nat.add_assoc, Nat.add_comm 1 k]
      exact h (k + 1) (by omega)
    have hfirst : m.cell i ≠ none := h 0 (by omega)
    rw [rdRange_succ, rd_draws_of_written hfirst, ih htail]

/-- A range read gives each written cell's byte and for each unwritten one a draw of its own (R40). -/
theorem readsAs_rdRange (m : Memory) (i n d : Nat) :
    ReadsAs m i n d (rdRange m i n d).2 (fun k => (rdRange m i n d).1.getD k 0) := by
  obtain ⟨hle, e, hdraw, hinj⟩ := rdRange_draws n m i d
  refine ⟨hle, fun h => rdRange_draws_of_written h d, fun k hk x hx => ?_, e, fun k hk hnone => ?_, hinj⟩
  · simp [List.getD_eq_getElem?_getD, rdRange_getElem?_written n m i d k hk x hx]
  · obtain ⟨hlo, hhi, hval⟩ := hdraw k hk hnone
    exact ⟨hlo, hhi, by simp [List.getD_eq_getElem?_getD, hval]⟩

/-- The text or data a completion sees is what `rdRange` reads from SRC. -/
theorem srcReadAs_rdRange (s : State) (n : Nat) :
    SrcReadAs s n (rdRange s.block.src 0 n s.draws).1 (rdRange s.block.src 0 n s.draws).2 :=
  ⟨rdRange_length .., readsAs_rdRange ..⟩

/-- Written from position 0 on, the bytes stand in the buffer's first cells. -/
theorem holds_writeAll (m : Memory) (out : List Byte) : Holds (m.writeAll 0 out) out := fun i hi => by
  rw [Memory.cell_writeAll, if_pos (by omega), Nat.sub_zero]

/-- The cells after the written ones are as they were. -/
theorem cell_writeAll_of_le (m : Memory) {out : List Byte} {j : Nat} (hj : out.length ≤ j) :
    (m.writeAll 0 out).cell j = m.cell j := by
  rw [Memory.cell_writeAll, if_neg (by omega)]

/-- A step of the block ends the command as `completeCommand` does. -/
theorem endsIn_of_completeCommand {s : State} {b b' : BlockState} {d : Nat} (hp : programWf s.host.program = true)
    (hm : s.mover = .block) (h : completeCommand s.params s.block s.draws = (b', d)) (hb : SameButLatches b' b) :
    EndsIn s b d := by
  refine ⟨b', ?_, hb⟩
  rw [step_block hp hm, blockStep, State.takeTurn_params, State.takeTurn_block, State.takeTurn_draws, h]
  rfl

/-- With OP_L = 0 the command that completes is an encode (R196). -/
theorem completeCommand_of_encode {b : BlockState} (h : b.opL = false) (p : Config.Params) (d : Nat) :
    completeCommand p b d = completeEncode p (alphabetOfLatch b.alphL) b d := by
  rw [completeCommand, h]
  rfl

theorem completeEncode_lenRange {p : Config.Params} {b : BlockState} (h : p.srcDepth < b.srcLen.toNat) (a : Alphabet)
    (d : Nat) : completeEncode p a b d = (b.opError .lenRange 0, d) := by
  obtain ⟨-, he⟩ | ⟨hn, -⟩ | ⟨hn, -⟩ := completeEncode_cases p a b d
  · exact he
  · omega
  · omega

theorem completeEncode_dstOverflow {p : Config.Params} {b : BlockState} (hn : b.srcLen.toNat ≤ p.srcDepth)
    (hm : p.dstDepth < encodedLength b.srcLen.toNat) (a : Alphabet) (d : Nat) :
    completeEncode p a b d = (b.opError .dstOverflow 0, d) := by
  obtain ⟨h, -⟩ | ⟨-, -, he⟩ | ⟨-, h, -⟩ := completeEncode_cases p a b d
  · omega
  · exact he
  · omega

theorem completeEncode_success {p : Config.Params} {b : BlockState} (hn : b.srcLen.toNat ≤ p.srcDepth)
    (hm : encodedLength b.srcLen.toNat ≤ p.dstDepth) (a : Alphabet) (d : Nat) :
    completeEncode p a b d =
      (b.succeed (encodeText a (rdRange b.src 0 b.srcLen.toNat d).1), (rdRange b.src 0 b.srcLen.toNat d).2) := by
  obtain ⟨h, -⟩ | ⟨-, h, -⟩ | ⟨-, -, he⟩ := completeEncode_cases p a b d
  · omega
  · omega
  · exact he

end Sys2Proof.Machine
end

section
/-! The obligations of the encode family. -/

namespace Sys2Proof.Proofs

open Sys2Proof.Machine Sys2Proof.Claims

/-- Settles O8: the length of the text, group by group; the bound is its value at n = 65536. -/
theorem encodeLengthLaw : Obligations.EncodeLengthLaw := by
  unfold Obligations.EncodeLengthLaw
  intro a d
  rw [encodeText_length, encodedLength]
  exact ⟨rfl, rfl, fun _ => by omega⟩

/-- Settles O9: the body has no `=`, so the padding after it is all there is. -/
theorem encodePaddingLaw : Obligations.EncodePaddingLaw := by
  unfold Obligations.EncodePaddingLaw
  intro a d
  obtain ⟨body, htext, hbody⟩ := encodeText_body a d
  have hcount : (encodeText a d).count pad = padCount d.length := by
    rw [htext, List.count_append, count_pad_of_allAlpha hbody, List.count_replicate_self, Nat.zero_add]
  exact ⟨body, htext, hcount, hbody⟩

/-- Settles O10: the four characters stand for no index of the other alphabet. -/
theorem encodeAlphabetsDisjoint : Obligations.EncodeAlphabetsDisjoint := by
  unfold Obligations.EncodeAlphabetsDisjoint
  intro d
  refine ⟨⟨?_, ?_⟩, ?_, ?_⟩ <;> exact not_mem_encodeText (by decide) (by decide) d

/-- Settles O12: ENCODE commutes with dropping and taking whole groups; the four fields are quotients of the group's value. -/
theorem encodeGroups : Obligations.EncodeGroups := by
  unfold Obligations.EncodeGroups
  intro a
  refine ⟨fun d g _ => ?_, fun b0 b1 b2 => ?_, fun b0 b1 => ?_, fun b0 => ?_⟩
  · rw [encodeText_drop, encodeText_take]
  · simp [encodeText, encodeGroup, extractLsb'_packBytes]
  · simp [encodeText, encodeGroup, extractLsb'_packBytes, pad]
  · simp [encodeText, encodeGroup, extractLsb'_packBytes, pad]

/-- Settles O35: the three ends of `completeEncode`; on success DST is written with the text of what `rdRange` reads. -/
theorem encodeCompletion : Obligations.EncodeCompletion := by
  unfold Obligations.EncodeCompletion
  intro s hp _ hstatus hm hop
  have hcomplete := completeCommand_of_encode hop s.params s.draws
  refine ⟨fun hn => ?_, fun hn hover => ?_, fun hn hfits => ?_⟩
  · exact endsIn_of_completeCommand hp hm (hcomplete.trans (completeEncode_lenRange hn _ _)) rfl
  · exact endsIn_of_completeCommand hp hm (hcomplete.trans (completeEncode_dstOverflow hn hover _ _)) rfl
  · obtain ⟨hrunning, -⟩ := hstatus
    obtain ⟨-, herr, hcode⟩ := hrunning (busy_of_mover_block hm)
    have hlen : (encodeText (alphabetOfLatch s.block.alphL) (rdRange s.block.src 0 s.block.srcLen.toNat s.draws).1).length =
        encodedLength s.block.srcLen.toNat := by
      rw [encodeText_length, rdRange_length]
    refine ⟨_, s.block.dst.writeAll 0 _, _, srcReadAs_rdRange s s.block.srcLen.toNat,
      endsIn_of_completeCommand hp hm (hcomplete.trans (completeEncode_success hn hfits _ _)) ?_,
      herr, hcode, hlen, holds_writeAll _ _, fun j hj => cell_writeAll_of_le _ (hlen.trans_le hj)⟩
    rw [BlockState.succeed, hlen]
    rfl

end Sys2Proof.Proofs
end

/-! ## The decode family: VALIDATE and DECODE as functions of a text, and the completion of a decode command (R150 to R167) -/

section
/-! SUPPORT. VALIDATE: which position offends and how (R151, R153), and which texts pass. -/

namespace Sys2Proof.Machine

/-! ### One character (R153) -/

/-- How the character `c` at position `i` offends, if it does, when `=` is accepted from position `m` on (R153). -/
def charFault (a : Alphabet) (m i : Nat) (c : Byte) : Option ErrCode :=
  if lookup a c = .invalid then some .badChar else if c = pad ∧ i < m then some .badPad else none

theorem charFault_eq_badChar_iff {a : Alphabet} {m i : Nat} {c : Byte} :
    charFault a m i c = some .badChar ↔ lookup a c = .invalid := by
  unfold charFault
  split
  · simp [*]
  · split <;> simp [*]

/-- `=` is never INVALID, so the two kinds of offence exclude each other. -/
theorem charFault_eq_badPad_iff {a : Alphabet} {m i : Nat} {c : Byte} :
    charFault a m i c = some .badPad ↔ c = pad ∧ i < m := by
  unfold charFault
  split
  case isTrue h =>
    have hc : c ≠ pad := by
      rintro rfl
      simp at h
    simp [hc]
  case isFalse h => split <;> simp [*]

theorem charFault_eq_none_iff {a : Alphabet} {m i : Nat} {c : Byte} :
    charFault a m i c = none ↔ ¬ (lookup a c = .invalid ∨ (c = pad ∧ i < m)) := by
  unfold charFault
  split
  · simp [*]
  · split <;> simp [*]

/-- The scan ends at its first character if that offends, and passes over it otherwise. -/
theorem scan_cons_charFault (a : Alphabet) (n p i : Nat) (c : Byte) (cs : List Byte) :
    scan a n p i (c :: cs) = (charFault a (n - p) i c).elim (scan a n p (i + 1) cs) (.fail · i) := by
  rw [scan_cons, charFault]
  split
  · rfl
  · split <;> rfl

/-! ### A text from position `i` on (R153) -/

/-- How the `j`-th character of `t` offends, if it does, when `t` begins at position `i`. -/
def faultAt (a : Alphabet) (m i : Nat) (t : List Byte) (j : Nat) : Option ErrCode := t[j]?.bind (charFault a m (i + j))

@[simp] theorem faultAt_nil (a : Alphabet) (m i j : Nat) : faultAt a m i [] j = none := rfl

@[simp] theorem faultAt_cons_zero (a : Alphabet) (m i : Nat) (c : Byte) (cs : List Byte) :
    faultAt a m i (c :: cs) 0 = charFault a m i c := rfl

@[simp] theorem faultAt_cons_succ (a : Alphabet) (m i : Nat) (c : Byte) (cs : List Byte) (j : Nat) :
    faultAt a m i (c :: cs) (j + 1) = faultAt a m (i + 1) cs j := by
  rw [faultAt, faultAt, List.getElem?_cons_succ, Nat.add_right_comm, Nat.add_assoc]

theorem faultAt_eq_badChar_iff {a : Alphabet} {m i j : Nat} {t : List Byte} :
    faultAt a m i t j = some .badChar ↔ ∃ c, t[j]? = some c ∧ lookup a c = .invalid := by
  simp only [faultAt, Option.bind_eq_some_iff, charFault_eq_badChar_iff]

theorem faultAt_eq_badPad_iff {a : Alphabet} {m i j : Nat} {t : List Byte} :
    faultAt a m i t j = some .badPad ↔ t[j]? = some pad ∧ i + j < m := by
  simp only [faultAt, Option.bind_eq_some_iff, charFault_eq_badPad_iff, and_left_comm, exists_eq_left]

theorem faultAt_eq_none_iff {a : Alphabet} {m i j : Nat} {t : List Byte} :
    faultAt a m i t j = none ↔ ¬ ∃ c, t[j]? = some c ∧ (lookup a c = .invalid ∨ (c = pad ∧ i + j < m)) := by
  simp only [faultAt, Option.bind_eq_none_iff, charFault_eq_none_iff, not_exists, not_and]

/-- The scan passes exactly when no position offends. -/
theorem scan_eq_ok_iff {a : Alphabet} {n p i : Nat} {t : List Byte} :
    scan a n p i t = .ok p ↔ ∀ j, faultAt a (n - p) i t j = none := by
  induction t generalizing i with
  | nil => simp [scan]
  | cons c cs ih =>
    rw [scan_cons_charFault, ← Nat.and_forall_add_one]
    cases hc : charFault a (n - p) i c with
    | none => simp [hc, ih]
    | some code => simp [hc]

/-- The scan fails at the first position that offends, with that position's kind of offence. -/
theorem scan_eq_fail_iff {a : Alphabet} {n p i k : Nat} {code : ErrCode} {t : List Byte} :
    scan a n p i t = .fail code (i + k) ↔
      faultAt a (n - p) i t k = some code ∧ ∀ j, j < k → faultAt a (n - p) i t j = none := by
  induction t generalizing i k with
  | nil => simp [scan]
  | cons c cs ih =>
    rw [scan_cons_charFault]
    cases hc : charFault a (n - p) i c with
    | none =>
      cases k with
      | zero =>
        have hlater : scan a n p (i + 1) cs ≠ .fail code i := fun h => by
          have := (scan_fail h).2.1
          omega
        simpa [hc] using hlater
      | succ k =>
        rw [← Nat.add_assoc, Nat.add_right_comm, Nat.forall_lt_succ_left]
        simp [hc, ih]
    | some code' =>
      cases k with
      | zero => simp [hc]
      | succ k =>
        rw [Nat.forall_lt_succ_left]
        simp [hc]

/-! ### VALIDATE (R150, R151, R153) -/

/-- A text of whole groups is scanned, with at most two `=` accepted at its end. -/
theorem validate_of_whole {t : List Byte} (h : t.length % 4 = 0) (a : Alphabet) :
    validate a t = scan a t.length (min (trailingPads t) 2) 0 t := by
  rw [validate, if_neg (not_not.2 h)]

theorem validate_of_not_whole {t : List Byte} (h : t.length % 4 ≠ 0) (a : Alphabet) :
    validate a t = .fail .badLength 0 := by
  rw [validate, if_pos h]

theorem validate_eq_ok_iff {a : Alphabet} {t : List Byte} (h : t.length % 4 = 0) :
    validate a t = .ok (min (trailingPads t) 2) ↔
      ∀ j, faultAt a (t.length - min (trailingPads t) 2) 0 t j = none := by
  rw [validate_of_whole h, scan_eq_ok_iff]

theorem validate_eq_fail_iff {a : Alphabet} {t : List Byte} {code : ErrCode} {k : Nat} (h : t.length % 4 = 0) :
    validate a t = .fail code k ↔
      faultAt a (t.length - min (trailingPads t) 2) 0 t k = some code ∧
        ∀ j, j < k → faultAt a (t.length - min (trailingPads t) 2) 0 t j = none := by
  rw [validate_of_whole h, ← scan_eq_fail_iff, Nat.zero_add]

/-- Every way VALIDATE can fail: BAD_LENGTH with index 0, or an offence of the scan at a position of the text (R155). -/
theorem validate_fail {a : Alphabet} {t : List Byte} {code : ErrCode} {i : Nat} (h : validate a t = .fail code i) :
    (code = .badLength ∧ i = 0 ∧ t.length % 4 ≠ 0) ∨ ((code = .badChar ∨ code = .badPad) ∧ i < t.length) := by
  by_cases hlen : t.length % 4 = 0
  · rw [validate_of_whole hlen] at h
    obtain ⟨hcode, -, hi⟩ := scan_fail h
    exact .inr ⟨hcode, by omega⟩
  · rw [validate_of_not_whole hlen] at h
    cases h
    exact .inl ⟨rfl, rfl, hlen⟩

theorem validate_badLength {a : Alphabet} {t : List Byte} {i : Nat} (h : validate a t = .fail .badLength i) :
    i = 0 ∧ t.length % 4 ≠ 0 := by
  obtain ⟨-, hzero⟩ | ⟨hcode, -⟩ := validate_fail h
  · exact hzero
  · simp at hcode

theorem lt_length_of_validate_fail {a : Alphabet} {t : List Byte} {code : ErrCode} {i : Nat}
    (h : validate a t = .fail code i) (hcode : code ≠ .badLength) : i < t.length := by
  obtain ⟨hlength, -⟩ | ⟨-, hi⟩ := validate_fail h
  · exact absurd hlength hcode
  · exact hi

/-! ### Texts that pass -/

/-- LOOKUP inverts ALPHA (R102). -/
@[simp] theorem lookup_alpha (a : Alphabet) (i : Sextet) : lookup a (alpha a i) = .idx i := by
  cases a <;> revert i <;> decide

/-- After alphabet characters, the trailing `=` are all the `=` there are. -/
theorem trailingPads_append_replicate {a : Alphabet} {body : List Byte} (hbody : AllAlpha a body) (k : Nat) :
    trailingPads (body ++ List.replicate k pad) = k := by
  have hfront : body.reverse.takeWhile (fun c => c == pad) = [] := by
    rw [List.takeWhile_eq_nil_iff]
    intro hl hpad
    obtain ⟨i, hi⟩ := hbody _ (List.mem_reverse.1 (List.get_mem _ ⟨0, hl⟩))
    exact alpha_ne_pad a i (hi.symm.trans (beq_iff_eq.1 hpad))
  rw [trailingPads, List.reverse_append, List.reverse_replicate, List.takeWhile_append_of_pos, hfront]
  · simp
  · exact fun c hc => beq_iff_eq.2 (List.eq_of_mem_replicate hc)

/-- Whole groups of alphabet characters with at most two `=` at the end pass (R150, R152, R153). -/
theorem validate_append_replicate {a : Alphabet} {body : List Byte} {k : Nat} (hbody : AllAlpha a body) (hk : k ≤ 2)
    (hlen : (body ++ List.replicate k pad).length % 4 = 0) : validate a (body ++ List.replicate k pad) = .ok k := by
  have hp : min (trailingPads (body ++ List.replicate k pad)) 2 = k := by
    rw [trailingPads_append_replicate hbody, Nat.min_eq_left hk]
  rw [validate_of_whole hlen, hp, scan_eq_ok_iff]
  intro j
  rw [faultAt_eq_none_iff]
  rintro ⟨c, hc, hfault⟩
  obtain hj | hj := Nat.lt_or_ge j body.length
  · rw [List.getElem?_append_left hj] at hc
    obtain ⟨i, rfl⟩ := hbody c (List.mem_of_getElem? hc)
    simp [alpha_ne_pad] at hfault
  · rw [List.getElem?_append_right hj] at hc
    obtain rfl := List.eq_of_mem_replicate (List.mem_of_getElem? hc)
    have hlt : j < body.length := by simpa using hfault
    omega

end Sys2Proof.Machine
end

section
/-! SUPPORT. DECODE: its length, its groups, and that it undoes ENCODE. -/

namespace Sys2Proof.Machine

/-! ### Length (R159) -/

@[simp] theorem dropLast_length (s : List Byte) (k : Nat) : (dropLast s k).length = s.length - k := by
  simp [dropLast]

theorem dropLast_append_length (s tail : List Byte) : dropLast (s ++ tail) tail.length = s := by
  simp [dropLast]

@[simp] theorem decodeText_length (a : Alphabet) (t : List Byte) (p : Nat) :
    (decodeText a t p).length = decodedLength t.length p := by
  rw [decodeText, dropLast_length, decodeGroups_length, decodedLength]

/-! ### Groups (R157, R158) -/

/-- The first group's bytes are those of the first four characters. -/
theorem decodeGroups_take (a : Alphabet) (t : List Byte) : (decodeGroups a t).take 3 = decodeGroups a (t.take 4) := by
  match t with
  | [] | [_] | [_, _] | [_, _, _] => rfl
  | _ :: _ :: _ :: _ :: _ => rfl

/-- The bytes after `g` groups are those of the characters after them. -/
theorem decodeGroups_drop (a : Alphabet) (g : Nat) (t : List Byte) :
    (decodeGroups a t).drop (3 * g) = decodeGroups a (t.drop (4 * g)) := by
  induction g generalizing t with
  | zero => rfl
  | succ g ih =>
    match t with
    | [] | [_] | [_, _] | [_, _, _] => simp [Nat.mul_succ, decodeGroups]
    | c0 :: c1 :: c2 :: c3 :: rest =>
      rw [decodeGroups_four, Nat.mul_succ, Nat.add_comm, ← List.drop_drop, List.drop_left' (decodeGroup_length ..), ih,
        Nat.mul_succ]
      rfl

@[simp] theorem sextet_alpha (a : Alphabet) (i : Sextet) : sextet a (alpha a i) = i := by
  rw [sextet, lookup_alpha]

@[simp] theorem sextet_pad (a : Alphabet) : sextet a pad = 0 := by
  rw [sextet, lookup_pad]

theorem packIndices_toNat (i0 i1 i2 i3 : Sextet) :
    (packIndices i0 i1 i2 i3).toNat = i0.toNat * 2 ^ 18 + i1.toNat * 2 ^ 12 + i2.toNat * 2 ^ 6 + i3.toNat := by
  rw [packIndices, BitVec.toNat_append, ← Nat.shiftLeft_add_eq_or_of_lt i3.isLt, BitVec.toNat_append,
    ← Nat.shiftLeft_add_eq_or_of_lt i2.isLt, BitVec.toNat_append, ← Nat.shiftLeft_add_eq_or_of_lt i1.isLt,
    Nat.shiftLeft_eq, Nat.shiftLeft_eq, Nat.shiftLeft_eq]
  omega

/-- The accumulator's bytes in arithmetic, most significant first (R106). -/
theorem accBytes_eq (acc : Acc) :
    accBytes acc = [BitVec.ofNat 8 (acc.toNat / 2 ^ 16), BitVec.ofNat 8 (acc.toNat / 2 ^ 8), BitVec.ofNat 8 acc.toNat] := by
  simp [accBytes, BitVec.extractLsb', Nat.shiftRight_eq_div_pow]

/-! ### DECODE after ENCODE (R165) -/

/-- Packing three bytes and taking the accumulator's bytes gives them back (R106). -/
@[simp] theorem accBytes_packBytes (b0 b1 b2 : Byte) : accBytes (packBytes b0 b1 b2) = [b0, b1, b2] := by
  rw [accBytes_eq, packBytes_toNat]
  simp only [List.cons.injEq, and_true, ← BitVec.toNat_inj, BitVec.toNat_ofNat]
  omega

/-- Packing the accumulator's four indices gives it back (R105). -/
@[simp] theorem packIndices_extractLsb' (acc : Acc) :
    packIndices (acc.extractLsb' 18 6) (acc.extractLsb' 12 6) (acc.extractLsb' 6 6) (acc.extractLsb' 0 6) = acc := by
  apply BitVec.eq_of_toNat_eq
  simp only [packIndices_toNat, BitVec.extractLsb'_toNat, Nat.shiftRight_eq_div_pow]
  omega

/-- A character replaced by `=` decodes to the index it stood for if that index was 0. -/
theorem sextet_ite_pad {cond : Prop} [Decidable cond] {i : Sextet} (h : cond → i = 0) (a : Alphabet) :
    sextet a (if cond then pad else alpha a i) = i := by
  split
  · rw [sextet_pad, h ‹_›]
  · exact sextet_alpha a i

/-- A group's text decodes to its three bytes, the missing ones of a short group being zero (R124, R158). -/
theorem decodeGroups_encodeGroup_append (a : Alphabet) (b0 : Byte) {b1 b2 : Byte} {k : Nat} (h1 : k = 1 → b1 = 0)
    (h2 : k = 1 ∨ k = 2 → b2 = 0) (rest : List Byte) :
    decodeGroups a (encodeGroup a b0 b1 b2 k ++ rest) = [b0, b1, b2] ++ decodeGroups a rest := by
  have hthird : k = 1 → (packBytes b0 b1 b2).extractLsb' 6 6 = 0 := fun hk => by
    apply BitVec.eq_of_toNat_eq
    simp only [extractLsb'_packBytes, h1 hk, h2 (.inl hk), BitVec.ofNat_eq_ofNat, BitVec.toNat_ofNat]
    omega
  have hfourth : k = 1 ∨ k = 2 → (packBytes b0 b1 b2).extractLsb' 0 6 = 0 := fun hk => by
    apply BitVec.eq_of_toNat_eq
    simp only [extractLsb'_packBytes, h2 hk, BitVec.ofNat_eq_ofNat, BitVec.toNat_ofNat]
    omega
  simp [encodeGroup, decodeGroups_four, decodeGroup, sextet_ite_pad hthird, sextet_ite_pad hfourth]

/-- Untrimmed, an encoded byte sequence decodes to itself and one zero byte for each `=`. -/
theorem decodeGroups_encodeText (a : Alphabet) (d : List Byte) :
    decodeGroups a (encodeText a d) = d ++ List.replicate (padCount d.length) 0 := by
  induction d using encodeText.induct with
  | case1 => rfl
  | case2 b0 => exact decodeGroups_encodeGroup_append a b0 (k := 1) (fun _ => rfl) (fun _ => rfl) []
  | case3 b0 b1 => exact decodeGroups_encodeGroup_append a b0 (k := 2) (by simp) (fun _ => rfl) []
  | case4 b0 b1 b2 rest ih =>
    rw [encodeText_three, decodeGroups_encodeGroup_append a b0 (k := 3) (by simp) (by simp), ih]
    simp

/-- An encoded byte sequence passes, with as many `=` as its last group lacks bytes (R128, R150). -/
theorem validate_encodeText (a : Alphabet) (d : List Byte) : validate a (encodeText a d) = .ok (padCount d.length) := by
  obtain ⟨body, htext, hbody⟩ := encodeText_body a d
  have hwhole : (encodeText a d).length % 4 = 0 := by
    rw [encodeText_length, encodedLength, Nat.mul_mod_left]
  rw [htext] at hwhole ⊢
  exact validate_append_replicate hbody (by rw [padCount]; omega) hwhole

end Sys2Proof.Machine
end

section
/-! SUPPORT. How a decode command completes (R167). -/

namespace Sys2Proof.Machine

/-- With OP_L = 1 the command that completes is a decode (R196). -/
theorem completeCommand_of_decode {b : BlockState} (h : b.opL = true) (p : Config.Params) (d : Nat) :
    completeCommand p b d = completeDecode p (alphabetOfLatch b.alphL) b d := by
  rw [completeCommand, if_pos h]

theorem completeDecode_lenRange {p : Config.Params} {b : BlockState} (h : p.srcDepth < b.srcLen.toNat) (a : Alphabet)
    (d : Nat) : completeDecode p a b d = (b.opError .lenRange 0, d) := by
  obtain ⟨-, he⟩ | ⟨hn, -⟩ | ⟨hn, -⟩ | ⟨hn, -⟩ := completeDecode_cases p a b d
  · exact he
  all_goals omega

section
variable {p : Config.Params} {a : Alphabet} {b : BlockState} {d k : Nat} {text : List Byte}
  (hn : b.srcLen.toNat ≤ p.srcDepth) (hread : rdRange b.src 0 b.srcLen.toNat d = (text, k))
include hn hread

/-- A text that fails ends the command in VALIDATE's verdict. -/
theorem completeDecode_fail {code : ErrCode} {i : Nat} (hv : validate a text = .fail code i) :
    completeDecode p a b d = (b.opError code i, k) := by
  have hcases := completeDecode_cases p a b d
  rw [hread] at hcases
  obtain ⟨hover, -⟩ | ⟨-, _, _, hv', he⟩ | ⟨-, _, hv', -⟩ | ⟨-, _, hv', -⟩ := hcases
  · omega
  · cases hv.symm.trans hv'
    exact he
  · cases hv.symm.trans hv'
  · cases hv.symm.trans hv'

theorem completeDecode_dstOverflow {q : Nat} (hv : validate a text = .ok q)
    (hm : p.dstDepth < decodedLength b.srcLen.toNat q) : completeDecode p a b d = (b.opError .dstOverflow 0, k) := by
  have hcases := completeDecode_cases p a b d
  rw [hread] at hcases
  obtain ⟨hover, -⟩ | ⟨-, _, _, hv', -⟩ | ⟨-, _, hv', -, he⟩ | ⟨-, _, hv', hfits, -⟩ := hcases
  · omega
  · cases hv.symm.trans hv'
  · exact he
  · cases hv.symm.trans hv'
    omega

theorem completeDecode_success {q : Nat} (hv : validate a text = .ok q)
    (hm : decodedLength b.srcLen.toNat q ≤ p.dstDepth) :
    completeDecode p a b d = (b.succeed (decodeText a text q), k) := by
  have hcases := completeDecode_cases p a b d
  rw [hread] at hcases
  obtain ⟨hover, -⟩ | ⟨-, _, _, hv', -⟩ | ⟨-, _, hv', hover, -⟩ | ⟨-, _, hv', -, he⟩ := hcases
  · omega
  · cases hv.symm.trans hv'
  · cases hv.symm.trans hv'
    omega
  · cases hv.symm.trans hv'
    exact he

end

end Sys2Proof.Machine
end

section
/-! The obligations of the decode family. -/

namespace Sys2Proof.Proofs

open Sys2Proof.Machine Sys2Proof.Claims

/-- Settles O13: the text passes with its own padding count, and its untrimmed decoding has as many zero bytes at its end. -/
theorem decodeInvertsEncode : Obligations.DecodeInvertsEncode := by
  unfold Obligations.DecodeInvertsEncode
  intro a d
  refine ⟨padCount d.length, validate_encodeText a d, ?_⟩
  rw [decodeText, decodeGroups_encodeText]
  simpa using dropLast_append_length d (List.replicate (padCount d.length) 0)

/-- Settles O14: DECODE drops `p` of three bytes a group, and an accepted `p` is at most 2. -/
theorem decodeLengthLaw : Obligations.DecodeLengthLaw := by
  unfold Obligations.DecodeLengthLaw
  intro a t p hok
  have hp := validate_ok_le_two hok
  rw [decodeText_length, decodedLength]
  exact ⟨rfl, fun _ => by omega, fun _ => by omega⟩

/-- Settles O15: DECODE commutes with dropping and taking whole groups; the three bytes are quotients of the group's value. -/
theorem decodeGroups : Obligations.DecodeGroups := by
  unfold Obligations.DecodeGroups
  refine fun a => ⟨fun t g c0 c1 c2 c3 hgroup => ?_, fun c i hc => ?_⟩
  · rw [decodeGroups_drop, decodeGroups_take, hgroup]
    rfl
  · have hsextet (k : Fin 4) : sextet a (c k) = i k := by
      obtain hk | ⟨hk, hi⟩ := hc k
      · rw [hk, sextet_alpha]
      · rw [hk, hi]
        exact sextet_pad a
    rw [decodeGroup, accBytes_eq, packIndices_toNat, hsextet, hsextet, hsextet, hsextet]

/-- Settles O16: `faultAt` names each position's offence, and VALIDATE answers the first one. -/
theorem validateFirstOffender : Obligations.ValidateFirstOffender := by
  unfold Obligations.ValidateFirstOffender
  intro a t i hlen
  refine ⟨?_, ?_, ?_⟩
  · simp only [validate_eq_fail_iff hlen, faultAt_eq_badChar_iff, faultAt_eq_none_iff, Nat.zero_add]
    rfl
  · simp only [validate_eq_fail_iff hlen, faultAt_eq_badPad_iff, faultAt_eq_none_iff, Nat.zero_add]
    rfl
  · simp only [validate_eq_ok_iff hlen, faultAt_eq_none_iff, Nat.zero_add]
    rfl

/-- Settles O36: the ends of `completeDecode`, all on the text that `rdRange` reads. -/
theorem decodeCompletion : Obligations.DecodeCompletion := by
  unfold Obligations.DecodeCompletion
  intro s hp _ hstatus hm hop
  have hcomplete := completeCommand_of_decode hop s.params s.draws
  refine ⟨fun hn => endsIn_of_completeCommand hp hm (hcomplete.trans (completeDecode_lenRange hn _ _)) rfl, fun hn => ?_⟩
  obtain ⟨⟨t, k⟩, hread⟩ : ∃ r, rdRange s.block.src 0 s.block.srcLen.toNat s.draws = r := ⟨_, rfl⟩
  have hsrc : SrcReadAs s s.block.srcLen.toNat t k := by
    simpa only [hread] using srcReadAs_rdRange s s.block.srcLen.toNat
  have hlen := hsrc.1
  have hfail {code : ErrCode} {i : Nat} (hv : validate (alphabetOfLatch s.block.alphL) t = .fail code i) :
      EndsIn s (errorBlock s.block code.code i) k :=
    endsIn_of_completeCommand hp hm (hcomplete.trans (completeDecode_fail hn hread hv)) rfl
  refine ⟨t, k, hsrc, fun i hv => ?_, fun i hv => ?_, fun i hv => ?_, fun code i hv => ?_,
    fun p hv => ⟨fun hover => ?_, fun hfits => ?_⟩⟩
  · obtain ⟨rfl, -⟩ := validate_badLength hv
    exact hfail hv
  · exact ⟨(lt_length_of_validate_fail hv nofun).trans_eq hlen, hfail hv⟩
  · exact ⟨(lt_length_of_validate_fail hv nofun).trans_eq hlen, hfail hv⟩
  · obtain ⟨hcode, -⟩ | ⟨hcode, -⟩ := validate_fail hv
    · exact .inl hcode
    · exact .inr hcode
  · exact endsIn_of_completeCommand hp hm (hcomplete.trans (completeDecode_dstOverflow hn hread hv hover)) rfl
  · obtain ⟨hrunning, -⟩ := hstatus
    obtain ⟨-, herr, hcode⟩ := hrunning (busy_of_mover_block hm)
    have hout : (decodeText (alphabetOfLatch s.block.alphL) t p).length = decodedLength s.block.srcLen.toNat p := by
      rw [decodeText_length, hlen]
    refine ⟨s.block.dst.writeAll 0 _,
      endsIn_of_completeCommand hp hm (hcomplete.trans (completeDecode_success hn hread hv hfits)) ?_,
      herr, hcode, hout, holds_writeAll _ _, fun j hj => cell_writeAll_of_le _ (hout.trans_le hj)⟩
    rw [BlockState.succeed, hout]
    rfl

/-- Settles O37: only a text without whole groups gets BAD_LENGTH, and the completion takes VALIDATE's verdict. -/
theorem badLengthBeforeCharacters : Obligations.BadLengthBeforeCharacters := by
  unfold Obligations.BadLengthBeforeCharacters
  refine ⟨fun a t => ⟨fun h => (validate_badLength h).2, fun h => validate_of_not_whole h a⟩,
    fun s hp hm hop hn hlen => ?_⟩
  rw [← rdRange_length s.block.srcLen.toNat s.block.src 0 s.draws] at hlen
  have hcomplete := (completeCommand_of_decode hop s.params s.draws).trans
    (completeDecode_fail hn rfl (validate_of_not_whole hlen _))
  obtain ⟨b, hstep, hb⟩ := endsIn_of_completeCommand (b := errorBlock s.block 3 0) hp hm hcomplete rfl
  exact ⟨_, hstep, hb⟩

end Sys2Proof.Proofs
end

/-! ## The control family: NOP, CLRSTAT, the acceptances, the reserved words and the block's step (R190 to R198) -/

section
/-! SUPPORT. A host write on the idle and on the busy block, the words that are no command, and when the block moves. -/

namespace Sys2Proof.Machine

open Sys2Proof.Claims

/-! ### A host write and its answer (R96, R276) -/

section
variable {s : State} {i : Instr} {f : BlockState → BlockState}

theorem exec_hostWrite_idle (hidle : s.block.busy = false) (hf : HostWrite s.params i f) :
    exec i s = .next (afterWrite s (f s.block)) :=
  (exec_hostWrite hf).trans (answerWrite_idle hidle)

theorem exec_hostWrite_busy (hbusy : s.block.busy = true) (hf : HostWrite s.params i f) :
    exec i s = .next (afterWrite s { s.block with ovr := true }) :=
  (exec_hostWrite hf).trans (answerWrite_busy hbusy)

/-- A host write answers OK whether the block is idle or busy (R198). -/
theorem exec_hostWrite_resp (hf : HostWrite s.params i f) : ∃ t, exec i s = .next t ∧ t.host.resp = some .ok :=
  ⟨_, exec_hostWrite hf, rfl⟩

end

/-! ### Reserved words (R94) -/

theorem decode_cmd_eq_error_iff {w : Word} {r : DecodeReject} :
    decode (.cmd w) = .error r ↔ decodeCmd w = .error r := by
  rw [decode_cmd]
  cases decodeCmd w <;> simp [Except.map]

/-- A word with a bit of RSVD set, and the two words that name NOP or CLRSTAT with URL = 1, are no command. -/
theorem decodeCmd_reserved {w : Word} (h : w.extractLsb' 3 29 ≠ 0 ∨ w = 0x4 ∨ w = 0x7) :
    ∃ r, decodeCmd w = .error r := by
  obtain hrsvd | rfl | rfl := h
  · exact ⟨.rsvdNotZero, if_pos hrsvd⟩
  · exact ⟨.nopWithUrl, by decide⟩
  · exact ⟨.clrstatWithUrl, by decide⟩

/-- On the idle block the error outcome leaves BUSY as it was (R194). -/
theorem BlockState.opError_of_idle {b : BlockState} (h : b.busy = false) (code : ErrCode) (index : Nat) :
    b.opError code index =
      { b with done := false, err := true, errcode := code.code, dstLen := 0, errIdx := BitVec.ofNat 32 index } := by
  rw [BlockState.opError, h]

/-! ### The block's turn (R196) -/

theorem mover_of_block_turn {s : State} {rest : List Turn} (h : s.turns = .block :: rest) (hbusy : s.block.busy = true) :
    s.mover = .block := by
  rw [State.mover, h]
  exact if_pos hbusy

/-- Every completion clears BUSY (R126, R161, R243). -/
theorem completeCommand_busy (p : Config.Params) (b : BlockState) (d : Nat) : (completeCommand p b d).1.busy = false := by
  obtain ⟨code, i, h⟩ | ⟨out, h⟩ := completeCommand_cases p b d
  · rw [h, BlockState.opError_busy]
  · rw [h, BlockState.succeed_busy]

end Sys2Proof.Machine
end

section
/-! The obligations of the control family. -/

namespace Sys2Proof.Proofs

open Sys2Proof.Machine Sys2Proof.Claims

/-- Settles O2: no reserved word decodes, so its W32 is the write whose effect is the error outcome BAD_CMD. -/
theorem reservedWordIsBadCmd : Obligations.ReservedWordIsBadCmd := by
  unfold Obligations.ReservedWordIsBadCmd
  intro w s hw
  obtain ⟨r, hr⟩ := decodeCmd_reserved hw
  have hwrite : HostWrite s.params (.w32 0x0 w) (BlockState.opError .badCmd 0) := .reserved w r hr
  refine ⟨⟨r, decode_of_decodeCmd_error hr⟩, fun hidle => ?_, fun hbusy => exec_hostWrite_busy hbusy hwrite⟩
  rw [exec_hostWrite_idle hidle hwrite, BlockState.opError_of_idle hidle]
  rfl

/-- Settles O23: a W32 to CMD is a host write whatever its word, with the effect that `decodeCmd` selects. -/
theorem cmdWriteDispatches : Obligations.CmdWriteDispatches := by
  unfold Obligations.CmdWriteDispatches
  intro w s
  obtain ⟨f, hf⟩ := exists_hostWrite_cmd s.params w
  refine ⟨fun i hi => ?_, fun hidle ⟨r, hr⟩ => ?_, fun hbusy => exec_hostWrite_busy hbusy hf, exec_hostWrite_resp hf⟩
  · obtain ⟨c, hc, rfl⟩ := decode_cmd_eq_ok_iff.1 hi
    calc exec (.w32 0x0 w) s
      _ = answerWrite (commandEffect c) s := exec_hostWrite (.cmdWord w c hc)
      _ = exec c.instr s := (exec_command c s).symm
  · exact exec_hostWrite_idle hidle (.reserved w r (decode_cmd_eq_error_iff.1 hr))

/-- Settles O45: `State.mover` names the block only while BUSY = 1, and its step is the completion that the latches select. -/
theorem blockStepsExactlyWhenBusy : Obligations.BlockStepsExactlyWhenBusy := by
  unfold Obligations.BlockStepsExactlyWhenBusy
  refine fun s => ⟨busy_of_mover_block, fun _ => mover_of_block_turn, fun hp hm => ?_⟩
  refine ⟨_, step_block hp hm, completeCommand_busy _ _ _, rfl, rfl, fun henc => ?_, fun hdec => ?_⟩
  · exact congrArg Prod.fst (completeCommand_of_encode henc s.params s.draws)
  · exact congrArg Prod.fst (completeCommand_of_decode hdec s.params s.draws)

/-- Settles O20: NOP is the command with no effect. -/
theorem nopChangesNothing : Obligations.NopChangesNothing := by
  unfold Obligations.NopChangesNothing
  exact fun s => ⟨fun hidle => exec_hostWrite_idle hidle (.command .nop),
    fun hbusy => exec_hostWrite_busy hbusy (.command .nop)⟩

/-- Settles O21: CLRSTAT is the command with the effect `clearStatus`. -/
theorem clrstatClears : Obligations.ClrstatClears := by
  unfold Obligations.ClrstatClears
  exact fun s => ⟨fun hidle => exec_hostWrite_idle hidle (.command .clrstat),
    fun hbusy => exec_hostWrite_busy hbusy (.command .clrstat)⟩

/-- Settles O22: each data command's effect on the idle block is its acceptance. -/
theorem dataCommandsAccepted : Obligations.DataCommandsAccepted := by
  unfold Obligations.DataCommandsAccepted
  intro s hidle
  have haccept (c : Command) : exec c.instr s = .next (afterWrite s (commandEffect c s.block)) :=
    exec_hostWrite_idle hidle (.command c)
  exact ⟨haccept (.enc .std), haccept (.enc .url), haccept (.dec .std), haccept (.dec .url)⟩

end Sys2Proof.Proofs
end

/-! ## The host access family: R8 and W8 (R210, R211) -/

section
/-! SUPPORT. What an R8 answers for the byte it reads, and when a byte of DST is a draw. -/

namespace Sys2Proof.Machine

open Sys2Proof.Claims

/-- R8 answers the byte that `MemRead` gives, zero-extended (R210). -/
theorem exec_r8_of_memRead8 {off : Word} {s : State} {v : Byte} {d : Nat} (h : memRead8 off s = some (v, d)) :
    exec (.r8 off) s = .next (afterRead s (v.setWidth 32) d) := by
  have hread : readResult s (.r8 off) = some (zextByte v, d) := Option.map_eq_some_iff.2 ⟨(v, d), h, rfl⟩
  exact exec_read_some (not_isWrite_r8 off) hread

/-- A byte of DST is a draw while BUSY = 1, and on the idle block where it is unwritten (R209). -/
theorem rdDst_drawn {b : BlockState} {i : Nat} (h : b.busy = true ∨ b.dst.cell i = none) (d : Nat) :
    rdDst b i d = (Config.draw8 d, d + 1) := by
  cases hb : b.busy with
  | true => exact rdDst_busy hb i d
  | false =>
    have hcell : b.dst.cell i = none := h.resolve_left (by simp [hb])
    rw [rdDst_idle hb, rd_unwritten hcell]

end Sys2Proof.Machine
end

section
/-! The obligations of the host access family. -/

namespace Sys2Proof.Proofs

open Sys2Proof.Machine Sys2Proof.Claims

/-- Settles O24: inside a buffer `MemRead` gives the cell's byte or a draw, and any other offset is not one that R62 lists. -/
theorem byteReads : Obligations.ByteReads := by
  unfold Obligations.ByteReads
  intro off s hp
  refine ⟨fun hsrc => ⟨fun v hv => ?_, fun hv => ?_⟩, fun hdst => ⟨fun v hidle hv => ?_, fun hdraw => ?_⟩,
    fun hsrc hdst => exec_of_not_permitted (not_or.2 ⟨hsrc, hdst⟩)⟩
  · exact exec_r8_of_memRead8 (by rw [memRead8_src hsrc, rd_written hv])
  · exact exec_r8_of_memRead8 (by rw [memRead8_src hsrc, rd_unwritten hv])
  · exact exec_r8_of_memRead8 (by rw [memRead8_dst hp hdst, rdDst_idle hidle, rd_written hv])
  · exact exec_r8_of_memRead8 (by rw [memRead8_dst hp hdst, rdDst_drawn hdraw])

/-- Settles O30: inside SRC a W8 is a host write that gives one cell the low lane of DATA; elsewhere R62 does not list it. -/
theorem byteWrites : Obligations.ByteWrites := by
  unfold Obligations.ByteWrites
  intro off data s
  have hwrite (hin : InSrc s.params off 1) :
      HostWrite s.params (.w8 off data) (BlockState.writeSrc (srcPos off) [byteLane data 0]) :=
    .srcByte off data ((inSrc_iff _ off (by omega)).2 hin)
  refine ⟨fun hin hidle => ?_, fun hin hbusy => exec_hostWrite_busy hbusy (hwrite hin),
    fun hout => exec_of_not_permitted hout⟩
  exact ⟨_, exec_hostWrite_idle hidle (hwrite hin),
    Memory.cell_write s.block.src (off.toNat - 0x10000) (byteLane data 0)⟩

end Sys2Proof.Proofs
end

/-! ## The hazard family: host writes while a command runs (R276) -/

section
/-! The obligations of the hazard family. -/

namespace Sys2Proof.Proofs

open Sys2Proof.Machine Sys2Proof.Claims

/-- Settles O32: a permitted write is a host write, which the busy hazard turns into OVR; any other one R62 does not list. -/
theorem writesWhileBusyIgnored : Obligations.WritesWhileBusyIgnored := by
  unfold Obligations.WritesWhileBusyIgnored
  intro i s hbusy hwrite
  refine ⟨fun hperm => ?_, fun hforbidden => exec_of_not_permitted hforbidden⟩
  obtain ⟨f, hf⟩ := exists_hostWrite hwrite hperm
  exact exec_hostWrite_busy hbusy hf

end Sys2Proof.Proofs
end

/-! ## The other family, encodings: an instruction as bits (R90 to R96) -/

section
/-! SUPPORT. An encoded instruction as bits, and back. -/

namespace Sys2Proof

/-- The fields of a record stand where `HostTxn.bits` puts them (log 8). -/
@[simp] theorem HostTxn.ofBits_bits (t : HostTxn) : HostTxn.ofBits t.bits = t := by
  obtain ⟨kind, off, data⟩ := t
  simp only [HostTxn.ofBits, HostTxn.bits, HostTxn.mk.injEq]
  refine ⟨?_, ?_, ?_⟩
  · rw [BitVec.extractLsb'_append_eq_of_add_le (by omega), BitVec.extractLsb'_eq_self]
  · rw [BitVec.extractLsb'_append_eq_of_le (by omega), BitVec.extractLsb'_append_eq_of_add_le (by omega),
      BitVec.extractLsb'_eq_self]
  · rw [BitVec.extractLsb'_append_eq_of_le (by omega), BitVec.extractLsb'_append_eq_of_le (by omega),
      BitVec.extractLsb'_eq_self]

/-- An encoded instruction is the one that its numbered bits give. -/
theorem InstrWord.ofTable_toTable (x : InstrWord) : InstrWord.ofTable x.toTable.1 x.toTable.2 = x := by
  cases x with
  | cmd w => simp [InstrWord.ofTable, InstrWord.toTable]
  | txn t => simp [InstrWord.ofTable, InstrWord.toTable, Nat.mod_eq_of_lt t.bits.isLt]

/-- The decoder inverts the encoder (R93, R96). -/
theorem decode_encode (i : Instr) : decode (encode i) = .ok i := by
  cases i with
  | nop | encStd | decStd | clrstat | encUrl | decUrl => decide
  | r8 | r32 | w8 | w32 => rfl

theorem decodeTableWord_eq_some_iff {nbits w : Nat} {i : Instr} :
    decodeTableWord nbits w = some i ↔ decode (.ofTable nbits w) = .ok i := by
  rw [decodeTableWord]
  cases decode (.ofTable nbits w) <;> simp [Except.toOption]

/-- KIND by its two bits: bit 1 is the direction and bit 0 the size (R96). -/
theorem kind_eq_of_bits (kind : BitVec 2) :
    kind = BitVec.ofBool (kind.getLsbD 1) ++ BitVec.ofBool (kind.getLsbD 0) := by
  revert kind
  decide

end Sys2Proof
end

section
/-! The obligations about encodings. -/

namespace Sys2Proof.Proofs

open Sys2Proof.Machine Sys2Proof.Claims

/-- Settles O3: the numbered bits give the encoded form back, and the decoder inverts the encoder. -/
theorem instrEncodingRoundTrip : Obligations.InstrEncodingRoundTrip := by
  unfold Obligations.InstrEncodingRoundTrip
  intro i
  rw [decodeTableWord_eq_some_iff, InstrWord.ofTable_toTable, decode_encode]

/-- Settles O4: the decoder evaluated at each of the five. -/
theorem writtenOutWordsDecode : Obligations.WrittenOutWordsDecode := by
  unfold Obligations.WrittenOutWordsDecode
  decide

/-- Settles O5: the two bits fix KIND, and the decoder selects by it. -/
theorem transactionKindsDecode : Obligations.TransactionKindsDecode := by
  unfold Obligations.TransactionKindsDecode
  rintro ⟨kind, off, data⟩
  have hkind := kind_eq_of_bits kind
  refine ⟨fun h1 h0 => ?_, fun h1 h0 => ?_, fun h1 h0 => ?_, fun h1 h0 => ?_⟩ <;>
  · rw [h1, h0] at hkind
    subst hkind
    rfl

end Sys2Proof.Proofs
end

/-! ## The other family, the invariant: what every step keeps (R31, R33, R37, R38, R214, R247) -/

section
/-! SUPPORT. The invariant of the machine, part by part: what the block's events and the host's statements keep. -/

namespace Sys2Proof.Machine

/-! ### The block's part -/

/-- The block's part of `State.Inv`. -/
structure BlockState.Inv (p : Config.Params) (b : BlockState) : Prop where
  status : b.StatusInv
  buffers : b.BufferInv p
  result : b.ResultInv p

theorem State.Inv.block_inv {s : State} (h : s.Inv) : s.block.Inv s.params := ⟨h.status, h.buffers, h.result⟩

/-- With no error STATUS is in order when BUSY and DONE exclude each other (R31). -/
theorem BlockState.statusInv_of_no_error {b : BlockState} (hdone : b.busy = true → b.done = false) (herr : b.err = false)
    (hcode : b.errcode = 0) : b.StatusInv := by
  refine ⟨fun hbusy => ⟨hdone hbusy, herr, hcode⟩, fun _ => herr, ?_, ?_⟩ <;> simp [herr, hcode]

theorem BlockState.statusInv_opError (code : ErrCode) (index : Nat) (b : BlockState) : (b.opError code index).StatusInv := by
  have hcode := code.code_range
  have hne : code.code ≠ 0 := by cases code <;> decide
  refine ⟨?_, ?_, ?_, ?_⟩
  · simp
  · simp
  · simpa using hcode
  · simpa using hne

theorem BlockState.inv_reset (p : Config.Params) : BlockState.reset.Inv p where
  status := statusInv_of_no_error (fun _ => rfl) rfl rfl
  buffers := ⟨.nil, nofun, .nil, nofun⟩
  result := ⟨Nat.zero_le _, nofun⟩

section
variable {p : Config.Params} {b : BlockState} (h : b.Inv p)
include h

theorem BlockState.Inv.setOvr : b.setOvr.Inv p := ⟨h.status, h.buffers, h.result⟩

theorem BlockState.Inv.setSrcLen (v : Word) : (b.setSrcLen v).Inv p := ⟨h.status, h.buffers, h.result⟩

theorem BlockState.Inv.clearStatus : b.clearStatus.Inv p where
  status := statusInv_of_no_error (fun _ => rfl) rfl rfl
  buffers := h.buffers
  result := ⟨h.result.1, nofun⟩

theorem BlockState.Inv.accept (op : Bool) (a : Alphabet) : (b.accept op a).Inv p where
  status := statusInv_of_no_error (fun _ => rfl) rfl rfl
  buffers := h.buffers
  result := ⟨h.result.1, nofun⟩

theorem BlockState.Inv.opError (code : ErrCode) (index : Nat) : (b.opError code index).Inv p where
  status := statusInv_opError code index b
  buffers := h.buffers
  result := ⟨Nat.zero_le _, nofun⟩

theorem BlockState.Inv.writeSrc {i : Nat} {bytes : List Byte} (hi : i + bytes.length ≤ p.srcDepth) :
    (b.writeSrc i bytes).Inv p := by
  obtain ⟨hsrc, hsrcIn, hdst⟩ := h.buffers
  exact ⟨h.status, ⟨Memory.wf_writeAll bytes hsrc i, Memory.within_writeAll bytes hsrcIn i hi, hdst⟩, h.result⟩

theorem BlockState.Inv.commandEffect (c : Command) : (commandEffect c b).Inv p := by
  cases c with
  | nop => exact h
  | clrstat => exact h.clearStatus
  | enc a => exact h.accept false a
  | dec a => exact h.accept true a

/-- Every permitted write keeps the block's invariant on the idle block; a write into SRC stays within SRC_DEPTH. -/
theorem BlockState.Inv.hostWrite {i : Instr} {f : BlockState → BlockState} (hf : HostWrite p i f) : (f b).Inv p := by
  have hpos {off : Word} {w : Nat} (hw : 1 ≤ w) (hin : inSrc p off w = true) : srcPos off + w ≤ p.srcDepth := by
    rw [inSrc_iff p off hw] at hin
    simp only [srcPos, srcBase]
    omega
  cases hf with
  | command c => exact h.commandEffect c
  | cmdWord w c => exact h.commandEffect c
  | reserved w r => exact h.opError .badCmd 0
  | srcLen v => exact h.setSrcLen v
  | srcByte off data hin => exact h.writeSrc (hpos (w := 1) (by omega) hin)
  | srcWord off data _ hin => exact h.writeSrc (hpos (w := 4) (by omega) hin)

theorem BlockState.Inv.writeUnlessBusy {i : Instr} {f : BlockState → BlockState} (hf : HostWrite p i f) :
    (b.writeUnlessBusy f).Inv p := by
  cases hbusy : b.busy with
  | true =>
    rw [BlockState.writeUnlessBusy_of_busy hbusy]
    exact h.setOvr
  | false =>
    rw [BlockState.writeUnlessBusy_of_idle hbusy]
    exact h.hostWrite hf

end

/-! ### A completion -/

/-- A completion ends in the error outcome or in a success whose result fits into DST (R131, R167). -/
theorem completeCommand_fits (p : Config.Params) (b : BlockState) (d : Nat) :
    (∃ code i, (completeCommand p b d).1 = b.opError code i) ∨
    (∃ out, out.length ≤ p.dstDepth ∧ (completeCommand p b d).1 = b.succeed out) := by
  cases hop : b.opL with
  | false =>
    rw [completeCommand_of_encode hop]
    obtain ⟨-, h⟩ | ⟨-, -, h⟩ | ⟨-, hfits, h⟩ := completeEncode_cases p (alphabetOfLatch b.alphL) b d
    · exact .inl ⟨_, _, congrArg Prod.fst h⟩
    · exact .inl ⟨_, _, congrArg Prod.fst h⟩
    · exact .inr ⟨_, le_of_eq_of_le (by simp) hfits, congrArg Prod.fst h⟩
  | true =>
    rw [completeCommand_of_decode hop]
    obtain ⟨-, h⟩ | ⟨-, code, i, -, h⟩ | ⟨-, k, -, -, h⟩ | ⟨-, k, -, hfits, h⟩ :=
      completeDecode_cases p (alphabetOfLatch b.alphL) b d
    · exact .inl ⟨_, _, congrArg Prod.fst h⟩
    · exact .inl ⟨_, _, congrArg Prod.fst h⟩
    · exact .inl ⟨_, _, congrArg Prod.fst h⟩
    · exact .inr ⟨_, le_of_eq_of_le (by simp) hfits, congrArg Prod.fst h⟩

/-- A result that fits into DST has its length in DST_LEN (R33). -/
theorem BlockState.succeed_dstLen_toNat {p : Config.Params} (hp : p.Wf) {out : List Byte} (hout : out.length ≤ p.dstDepth)
    (b : BlockState) : (b.succeed out).dstLen.toNat = out.length := by
  obtain ⟨-, -, -, hdst⟩ := hp
  exact toNat_ofNat_depth (by omega)

/-- The bytes of the result are written (R38). -/
theorem BlockState.succeed_written (b : BlockState) {out : List Byte} {j : Nat} (hj : j < out.length) :
    (b.succeed out).dst.cell j ≠ none := by
  rw [BlockState.succeed_dst, holds_writeAll _ _ j hj]
  simpa using hj

/-- While BUSY = 1 a success leaves ERR and ERRCODE at 0, since the invariant has them there (R31). -/
theorem BlockState.Inv.succeed {p : Config.Params} {b : BlockState} (h : b.Inv p) (hp : p.Wf) (hbusy : b.busy = true)
    {out : List Byte} (hout : out.length ≤ p.dstDepth) : (b.succeed out).Inv p := by
  obtain ⟨-, herr, hcode⟩ := h.status.1 hbusy
  obtain ⟨hsrc, hsrcIn, hdst, hdstIn⟩ := h.buffers
  have hlen := b.succeed_dstLen_toNat hp hout
  refine ⟨statusInv_of_no_error nofun herr hcode, ⟨hsrc, hsrcIn, Memory.wf_writeAll out hdst 0,
    Memory.within_writeAll out hdstIn 0 (by omega)⟩, by omega, fun _ i hi => ?_⟩
  exact Option.isSome_iff_ne_none.2 (b.succeed_written (by omega))

theorem BlockState.Inv.completeCommand {p : Config.Params} {b : BlockState} (h : b.Inv p) (hp : p.Wf)
    (hbusy : b.busy = true) (d : Nat) : (completeCommand p b d).1.Inv p := by
  obtain ⟨code, i, he⟩ | ⟨out, hout, he⟩ := completeCommand_fits p b d
  · rw [he]
    exact h.opError code i
  · rw [he]
    exact h.succeed hp hbusy hout

/-! ### The host's part -/

/-- A host that stands at anything but a HALT stands at a statement of its program. -/
theorem HostAgent.getElem?_of_fetch {h : HostAgent} {st : Stmt} (hf : h.fetch = st) (hst : st ≠ .halt) :
    h.program[h.pc]? = some st := by
  unfold HostAgent.fetch at hf
  cases hget : h.program[h.pc]? with
  | none => exact absurd (by simpa [hget] using hf.symm) hst
  | some x => simpa [hget] using hf

theorem HostAgent.pc_lt_of_fetch {h : HostAgent} {st : Stmt} (hf : h.fetch = st) (hst : st ≠ .halt) :
    h.pc < h.program.length :=
  (List.getElem?_eq_some_iff.1 (getElem?_of_fetch hf hst)).1

/-- In a well-formed program each statement is well formed (R214). -/
theorem programWf_iff (prog : List Stmt) : programWf prog = true ↔ ∀ st ∈ prog, st.wf prog.length = true := List.all_eq_true

theorem HostAgent.wf_of_fetch {h : HostAgent} {st : Stmt} (hp : programWf h.program = true) (hf : h.fetch = st)
    (hst : st ≠ .halt) : st.wf h.program.length = true :=
  (programWf_iff _).1 hp st (List.mem_of_getElem? (getElem?_of_fetch hf hst))

/-- A host that has not faulted is in order while its pc is. -/
theorem HostAgent.inv_of_not_faulted {h : HostAgent} (hp : programWf h.program = true) (hpc : h.pc ≤ h.program.length)
    (hs : ∀ k, h.status ≠ .faulted k) : h.Inv :=
  ⟨hp, hpc, fun k hk => absurd hk (hs k)⟩

/-- A fault names the statement at the pc (R247). -/
theorem HostAgent.inv_of_faulted {h : HostAgent} (hp : programWf h.program = true) (hpc : h.pc < h.program.length)
    (hs : h.status = .faulted h.pc) : h.Inv :=
  ⟨hp, hpc.le, fun k hk => by
    obtain rfl : h.pc = k := HostStatus.faulted.inj (hs.symm.trans hk)
    exact ⟨rfl, hpc⟩⟩

section
variable {h : HostAgent} (hp : programWf h.program = true) (hpc : h.pc < h.program.length) (hs : h.status = .running)
include hp hpc

theorem HostAgent.inv_fault : h.fault.Inv := inv_of_faulted hp hpc rfl

theorem HostAgent.inv_busError : h.busError.Inv := inv_of_faulted hp hpc rfl

include hs

theorem HostAgent.inv_answerRead (v : Word) : (h.answerRead v).Inv := inv_of_not_faulted hp hpc (by simp [hs])

theorem HostAgent.inv_answerWrite : h.answerWrite.Inv := inv_of_not_faulted hp hpc (by simp [hs])

/-- A branch goes to the next statement or to its target, which the program has. -/
theorem HostAgent.inv_branch (taken : Word → Bool) {k : Nat} (hk : k < h.program.length) : (h.branch taken k).Inv := by
  obtain ⟨-, he⟩ | ⟨v, -, he⟩ := branch_cases taken k h
  · rw [he]
    exact inv_fault hp hpc
  · rw [he]
    refine inv_of_not_faulted hp ?_ (by simp [hs])
    dsimp only
    split <;> omega

end

/-! ### The machine -/

/-- A running host's transaction keeps the invariant. -/
theorem exec_keeps_inv {i : Instr} {s t : State} (hinv : s.Inv) (hs : s.host.status = .running)
    (hpc : s.host.pc < s.host.program.length) (h : exec i s = .next t) : t.Inv := by
  obtain ⟨hprog, -, -⟩ := hinv.host
  obtain ⟨r, he⟩ | he | ⟨f, hf, he⟩ := exec_cases i s
  · cases he.symm.trans h
    exact ⟨hinv.params, hinv.status, hinv.buffers, hinv.result, HostAgent.inv_answerRead hprog hpc hs r.1⟩
  · cases he.symm.trans h
    exact ⟨hinv.params, hinv.status, hinv.buffers, hinv.result, HostAgent.inv_busError hprog hpc⟩
  · cases he.symm.trans h
    obtain ⟨hstatus, hbuffers, hresult⟩ := hinv.block_inv.writeUnlessBusy hf
    exact ⟨hinv.params, hstatus, hbuffers, hresult, HostAgent.inv_answerWrite hprog hpc hs⟩

theorem hostStep_keeps_inv {s t : State} (hinv : s.Inv) (h : hostStep s = .next t) : t.Inv := by
  have withHost {h' : HostAgent} (hh : h'.Inv) : { s with host := h' }.Inv :=
    ⟨hinv.params, hinv.status, hinv.buffers, hinv.result, hh⟩
  obtain ⟨hprog, hpc, -⟩ := hinv.host
  obtain ⟨-, rfl⟩ | ⟨hs, ⟨x, hf, hx⟩ | ⟨mask, k, hf, rfl⟩ | ⟨mask, k, hf, rfl⟩ | ⟨-, rfl⟩⟩ := hostStep_cases h
  · exact hinv
  · exact exec_keeps_inv hinv hs (HostAgent.pc_lt_of_fetch hf nofun) hx
  · have hk := of_decide_eq_true (HostAgent.wf_of_fetch hprog hf nofun)
    exact withHost (HostAgent.inv_branch hprog (HostAgent.pc_lt_of_fetch hf nofun) hs _ hk)
  · have hk := of_decide_eq_true (HostAgent.wf_of_fetch hprog hf nofun)
    exact withHost (HostAgent.inv_branch hprog (HostAgent.pc_lt_of_fetch hf nofun) hs _ hk)
  · exact withHost (HostAgent.inv_of_not_faulted hprog hpc nofun)

theorem State.Inv.takeTurn {s : State} (h : s.Inv) : s.takeTurn.Inv :=
  ⟨h.params, h.status, h.buffers, h.result, h.host⟩

end Sys2Proof.Machine
end

section
/-! The obligations about the invariant. -/

namespace Sys2Proof.Proofs

open Sys2Proof.Machine Sys2Proof.Claims

/-- Settles O46: a reset gives the block its reset values, a completion and a permitted write keep the block's part of the
invariant, and each kind of statement keeps the host's part. -/
theorem stepKeepsInvariant : Obligations.StepKeepsInvariant := by
  unfold Obligations.StepKeepsInvariant
  intro s t hinv h
  obtain ⟨-, ⟨-, rfl⟩ | ⟨-, hbusy, rfl⟩ | ⟨-, hh⟩⟩ := step_cases h
  · obtain ⟨hstatus, hbuffers, hresult⟩ := BlockState.inv_reset s.params
    exact ⟨hinv.params, hstatus, hbuffers, hresult, hinv.host⟩
  · obtain ⟨hstatus, hbuffers, hresult⟩ := hinv.block_inv.completeCommand hinv.params hbusy s.draws
    exact ⟨hinv.params, hstatus, hbuffers, hresult, hinv.host⟩
  · exact hostStep_keeps_inv hinv.takeTurn hh

/-- Settles O47: the reset block is in order, the depths of TC1 are in range, and the host stands at the end of the empty program. -/
theorem resetMeetsTheInvariant : Obligations.ResetMeetsTheInvariant := by
  unfold Obligations.ResetMeetsTheInvariant
  obtain ⟨hstatus, hbuffers, hresult⟩ := BlockState.inv_reset Config.tc1
  exact ⟨by decide, hstatus, hbuffers, hresult, HostAgent.inv_of_not_faulted rfl (Nat.le_refl 0) nofun⟩

end Sys2Proof.Proofs
end

/-! ## The other family, texts: LOOKUP, the texts that pass, and the other alphabet (R102, R132, R150, R164, R166) -/

section
/-! SUPPORT. LOOKUP as the inverse of ALPHA, the shape of a text that passes, and texts under the other alphabet. -/

namespace Sys2Proof.Machine

/-! ### LOOKUP (R102) -/

/-- The character that an answer of LOOKUP stands for. -/
def Lookup.char (a : Alphabet) : Lookup → Option Byte
  | .idx i => some (alpha a i)
  | .padc => some pad
  | .invalid => none

/-- An answer other than INVALID stands for the character looked up. -/
theorem lookup_char (a : Alphabet) (c : Byte) : lookup a c = .invalid ∨ (lookup a c).char a = some c := by
  cases a <;> revert c <;> decide

/-- LOOKUP knows the alphabet and `=`, and nothing else. -/
theorem lookup_eq_invalid_iff {a : Alphabet} {c : Byte} : lookup a c = .invalid ↔ (∀ i, alpha a i ≠ c) ∧ c ≠ pad := by
  constructor
  · intro h
    refine ⟨?_, ?_⟩
    · rintro i rfl
      simp at h
    · rintro rfl
      simp at h
  · rintro ⟨halpha, hpad⟩
    refine (lookup_char a c).resolve_right fun h => ?_
    cases hl : lookup a c <;> rw [hl] at h
    case idx i => exact halpha i (Option.some.inj h)
    case padc => exact hpad (Option.some.inj h).symm
    case invalid => cases h

/-- A character that LOOKUP knows and that is not `=` stands in the alphabet. -/
theorem exists_alpha_of_lookup {a : Alphabet} {c : Byte} (h : lookup a c ≠ .invalid) (hpad : c ≠ pad) :
    ∃ i, c = alpha a i := by
  by_contra hno
  exact h (lookup_eq_invalid_iff.2 ⟨fun i hi => hno ⟨i, hi.symm⟩, hpad⟩)

/-! ### The shape of a text that passes (R150, R152) -/

/-- A text ends in its trailing `=`. -/
theorem exists_append_trailingPads (t : List Byte) : ∃ front, t = front ++ List.replicate (trailingPads t) pad := by
  have hpads : t.reverse.takeWhile (· == pad) = List.replicate (trailingPads t) pad :=
    List.eq_replicate_iff.2 ⟨rfl, fun c hc => beq_iff_eq.1 (List.mem_takeWhile_imp (p := (· == pad)) hc)⟩
  refine ⟨(t.reverse.dropWhile (· == pad)).reverse, ?_⟩
  have h := congrArg List.reverse (List.takeWhile_append_dropWhile (p := (· == pad)) (l := t.reverse))
  rw [List.reverse_append, List.reverse_reverse, hpads, List.reverse_replicate] at h
  exact h.symm

/-- A text that passes is scanned through, and its padding is at most two of its trailing `=`. -/
theorem of_validate_ok {a : Alphabet} {t : List Byte} {p : Nat} (h : validate a t = .ok p) :
    t.length % 4 = 0 ∧ p = min (trailingPads t) 2 ∧
      ∀ j c, t[j]? = some c → lookup a c ≠ .invalid ∧ (c = pad → t.length - p ≤ j) := by
  by_cases hlen : t.length % 4 = 0
  · have hp : p = min (trailingPads t) 2 := scan_ok (by rwa [validate_of_whole hlen] at h)
    subst hp
    refine ⟨hlen, rfl, fun j c hc => ?_⟩
    have hnone := faultAt_eq_none_iff.1 ((validate_eq_ok_iff hlen).1 h j)
    refine ⟨fun hl => hnone ⟨c, hc, .inl hl⟩, fun hpad => Nat.le_of_not_lt fun hj => hnone ⟨c, hc, .inr ⟨hpad, ?_⟩⟩⟩
    omega
  · rw [validate_of_not_whole hlen] at h
    cases h

theorem lookup_ne_invalid_of_mem {a : Alphabet} {t : List Byte} {p : Nat} (h : validate a t = .ok p) {c : Byte}
    (hc : c ∈ t) : lookup a c ≠ .invalid := by
  obtain ⟨j, hj⟩ := List.mem_iff_getElem?.1 hc
  obtain ⟨-, -, hchars⟩ := of_validate_ok h
  exact (hchars j c hj).1

/-- A text that passes is alphabet characters and then its padding. -/
theorem exists_body_of_validate_ok {a : Alphabet} {t : List Byte} {p : Nat} (h : validate a t = .ok p) :
    ∃ body, t = body ++ List.replicate p pad ∧ AllAlpha a body := by
  obtain ⟨-, hp, hchars⟩ := of_validate_ok h
  obtain ⟨front, hfront⟩ := exists_append_trailingPads t
  have htext : t = (front ++ List.replicate (trailingPads t - p) pad) ++ List.replicate p pad := by
    rw [List.append_assoc, List.replicate_append_replicate, Nat.sub_add_cancel (by omega)]
    exact hfront
  generalize front ++ List.replicate (trailingPads t - p) pad = body at htext
  subst htext
  refine ⟨body, rfl, fun c hc => ?_⟩
  obtain ⟨j, hj, rfl⟩ := List.mem_iff_getElem.1 hc
  obtain ⟨hlookup, hpad⟩ := hchars j body[j] (by rw [List.getElem?_append_left hj, List.getElem?_eq_getElem hj])
  refine exists_alpha_of_lookup hlookup fun hc => ?_
  have := hpad hc
  simp only [List.length_append, List.length_replicate] at this
  omega

/-! ### Two alphabets that agree on a text (R132, R166) -/

/-- Only the four characters of indices 62 and 63 are looked up differently (R103). -/
theorem lookup_std_eq_url {c : Byte} (h : c ≠ 0x2B ∧ c ≠ 0x2F ∧ c ≠ 0x2D ∧ c ≠ 0x5F) : lookup .std c = lookup .url c := by
  revert c
  decide

theorem scan_congr {a a' : Alphabet} {t : List Byte} (h : ∀ c ∈ t, lookup a c = lookup a' c) (n p i : Nat) :
    scan a n p i t = scan a' n p i t := by
  induction t generalizing i with
  | nil => rfl
  | cons c cs ih =>
    obtain ⟨hc, hcs⟩ := List.forall_mem_cons.1 h
    rw [scan_cons, scan_cons, hc, ih hcs]

theorem validate_congr {a a' : Alphabet} {t : List Byte} (h : ∀ c ∈ t, lookup a c = lookup a' c) :
    validate a t = validate a' t := by
  rw [validate, validate, scan_congr h]

theorem decodeGroups_congr {a a' : Alphabet} {t : List Byte} (h : ∀ c ∈ t, lookup a c = lookup a' c) :
    decodeGroups a t = decodeGroups a' t := by
  induction t using decodeGroups.induct with
  | case1 c0 c1 c2 c3 rest ih =>
    simp only [List.forall_mem_cons] at h
    obtain ⟨h0, h1, h2, h3, hrest⟩ := h
    simp only [decodeGroups_four, decodeGroup, sextet, h0, h1, h2, h3, ih hrest]
  | case2 t ht =>
    match t, ht with
    | [], _ | [_], _ | [_, _], _ | [_, _, _], _ => rfl
    | c0 :: c1 :: c2 :: c3 :: rest, ht => exact absurd rfl (ht c0 c1 c2 c3 rest)

/-- The URL-safe character for a standard one (R103). -/
def urlChar (c : Byte) : Byte := if c = 0x2B then 0x2D else if c = 0x2F then 0x5F else c

@[simp] theorem urlChar_pad : urlChar pad = pad := rfl

@[simp] theorem urlChar_alpha (i : Sextet) : urlChar (alpha .std i) = alpha .url i := by
  revert i
  decide

theorem encodeGroup_map_urlChar (b0 b1 b2 : Byte) (k : Nat) :
    (encodeGroup .std b0 b1 b2 k).map urlChar = encodeGroup .url b0 b1 b2 k := by
  simp [encodeGroup, apply_ite urlChar]

theorem encodeText_map_urlChar (d : List Byte) : (encodeText .std d).map urlChar = encodeText .url d := by
  induction d using encodeText.induct with
  | case1 => rfl
  | case2 b0 => exact encodeGroup_map_urlChar b0 0 0 1
  | case3 b0 b1 => exact encodeGroup_map_urlChar b0 b1 0 2
  | case4 b0 b1 b2 rest ih => rw [encodeText_three, encodeText_three, List.map_append, encodeGroup_map_urlChar, ih]

/-! ### The bits a short last group drops (R164) -/

/-- Whole groups before a group decode on their own. -/
theorem decodeGroups_append {pre : List Byte} (h : pre.length % 4 = 0) (a : Alphabet) (t : List Byte) :
    decodeGroups a (pre ++ t) = decodeGroups a pre ++ decodeGroups a t := by
  induction pre using decodeGroups.induct with
  | case1 c0 c1 c2 c3 rest ih =>
    have hrest : rest.length % 4 = 0 := by
      simp only [List.length_cons] at h
      omega
    simp only [List.cons_append, decodeGroups_four, ih hrest, List.append_assoc]
  | case2 pre hpre =>
    match pre, hpre with
    | [], _ => rfl
    | [_], _ | [_, _], _ | [_, _, _], _ => simp at h
    | c0 :: c1 :: c2 :: c3 :: rest, hpre => exact absurd rfl (hpre c0 c1 c2 c3 rest)

/-- Trimming `tail.length` bytes trims the last group alone. -/
theorem decodeText_last_group {a : Alphabet} {pre : List Byte} (hpre : pre.length % 4 = 0) {c0 c1 c2 c3 : Byte}
    {front tail : List Byte} (h : decodeGroup a c0 c1 c2 c3 = front ++ tail) :
    decodeText a (pre ++ [c0, c1, c2, c3]) tail.length = decodeGroups a pre ++ front := by
  have hgroup : decodeGroups a [c0, c1, c2, c3] = front ++ tail := by
    rw [decodeGroups_four, h]
    exact List.append_nil _
  rw [decodeText, decodeGroups_append hpre, hgroup, ← List.append_assoc, dropLast_append_length]

/-- The first byte of a group is its first index and the upper two bits of its second. -/
theorem packIndices_byte2 (i0 i1 i2 i3 : Sextet) :
    (packIndices i0 i1 i2 i3).extractLsb' 16 8 = i0 ++ i1.extractLsb' 4 2 := by
  apply BitVec.eq_of_toNat_eq
  have h := (i1.extractLsb' 4 2).isLt
  rw [BitVec.toNat_append, ← Nat.shiftLeft_add_eq_or_of_lt h]
  simp only [BitVec.extractLsb'_toNat, packIndices_toNat, Nat.shiftRight_eq_div_pow, Nat.shiftLeft_eq]
  omega

/-- The second byte is the lower four bits of the second index and the upper four of the third. -/
theorem packIndices_byte1 (i0 i1 i2 i3 : Sextet) :
    (packIndices i0 i1 i2 i3).extractLsb' 8 8 = i1.extractLsb' 0 4 ++ i2.extractLsb' 2 4 := by
  apply BitVec.eq_of_toNat_eq
  have h := (i2.extractLsb' 2 4).isLt
  rw [BitVec.toNat_append, ← Nat.shiftLeft_add_eq_or_of_lt h]
  simp only [BitVec.extractLsb'_toNat, packIndices_toNat, Nat.shiftRight_eq_div_pow, Nat.shiftLeft_eq]
  omega

theorem decodeGroup_eq (a : Alphabet) (c0 c1 c2 c3 : Byte) :
    decodeGroup a c0 c1 c2 c3 =
      [sextet a c0 ++ (sextet a c1).extractLsb' 4 2, (sextet a c1).extractLsb' 0 4 ++ (sextet a c2).extractLsb' 2 4,
        (packIndices (sextet a c0) (sextet a c1) (sextet a c2) (sextet a c3)).extractLsb' 0 8] := by
  rw [decodeGroup, accBytes, packIndices_byte2, packIndices_byte1]

/-- With two `=` a text's last byte is the last group's first (R164). -/
theorem decodeText_two_pads {pre : List Byte} (hpre : pre.length % 4 = 0) (a : Alphabet) (i0 i1 : Sextet) :
    decodeText a (pre ++ [alpha a i0, alpha a i1, pad, pad]) 2 = decodeGroups a pre ++ [i0 ++ i1.extractLsb' 4 2] := by
  have h := decodeText_last_group hpre (front := [_]) (tail := [_, _]) (decodeGroup_eq a (alpha a i0) (alpha a i1) pad pad)
  rwa [sextet_alpha, sextet_alpha] at h

/-- With one `=` a text's last two bytes are the last group's first two (R164). -/
theorem decodeText_one_pad {pre : List Byte} (hpre : pre.length % 4 = 0) (a : Alphabet) (i0 i1 i2 : Sextet) :
    decodeText a (pre ++ [alpha a i0, alpha a i1, alpha a i2, pad]) 1 =
      decodeGroups a pre ++ [i0 ++ i1.extractLsb' 4 2, i1.extractLsb' 0 4 ++ i2.extractLsb' 2 4] := by
  have h := decodeText_last_group hpre (front := [_, _]) (tail := [_])
    (decodeGroup_eq a (alpha a i0) (alpha a i1) (alpha a i2) pad)
  rwa [sextet_alpha, sextet_alpha, sextet_alpha] at h

end Sys2Proof.Machine
end

section
/-! The obligations about the alphabets and their texts. -/

namespace Sys2Proof.Proofs

open Sys2Proof.Machine Sys2Proof.Claims

/-- Settles O7: LOOKUP inverts ALPHA, and its answer always stands for the character looked up. -/
theorem lookupInvertsAlphabet : Obligations.LookupInvertsAlphabet := by
  unfold Obligations.LookupInvertsAlphabet
  exact fun a => ⟨lookup_alpha a, lookup_pad a, fun c => lookup_eq_invalid_iff⟩

/-- Settles O11: each index's URL-safe character is its standard one's, and `=` is its own. -/
theorem encodeUrlSwapsTwoCharacters : Obligations.EncodeUrlSwapsTwoCharacters := by
  unfold Obligations.EncodeUrlSwapsTwoCharacters
  exact fun d => (encodeText_map_urlChar d).symm

/-- Settles O17: the scan's condition at each position, and the trailing `=` cut off the text's end. -/
theorem validTextShape : Obligations.ValidTextShape := by
  unfold Obligations.ValidTextShape
  intro a t p h
  exact ⟨(of_validate_ok h).1, validate_ok_le_two h, fun _ => lookup_ne_invalid_of_mem h, exists_body_of_validate_ok h⟩

/-- Settles O18: VALIDATE and DECODE see a text through LOOKUP alone, which is INVALID for the other alphabet's characters. -/
theorem crossAlphabetText : Obligations.CrossAlphabetText := by
  unfold Obligations.CrossAlphabetText
  have absent {a : Alphabet} {c : Byte} (hc : lookup a c = .invalid) {t : List Byte} {p : Nat}
      (h : validate a t = .ok p) : c ∉ t := fun hmem => lookup_ne_invalid_of_mem h hmem hc
  refine ⟨fun t ht => ?_, fun t p h => ⟨absent (by decide) h, absent (by decide) h⟩,
    fun t p h => ⟨absent (by decide) h, absent (by decide) h⟩⟩
  have hlookup : ∀ c ∈ t, lookup .std c = lookup .url c := fun c hc => lookup_std_eq_url (ht c hc)
  refine ⟨validate_congr hlookup, fun p => ?_⟩
  rw [decodeText, decodeText, decodeGroups_congr hlookup]

/-- Settles O19: the bytes that are kept of a short last group hold none of the dropped bits. -/
theorem discardedBitsIgnored : Obligations.DiscardedBitsIgnored := by
  unfold Obligations.DiscardedBitsIgnored
  intro a pre i0 i1 i2 j hlen hpre
  have passes {chars : List Byte} {k : Nat} (hchars : AllAlpha a chars) (hk : k ≤ 2) (hgroup : chars.length + k = 4) :
      validate a (pre ++ (chars ++ List.replicate k pad)) = .ok k := by
    rw [← List.append_assoc]
    refine validate_append_replicate (allAlpha_append hpre hchars) hk ?_
    simp only [List.length_append, List.length_replicate]
    omega
  refine ⟨fun hbits => ⟨?_, ?_⟩, fun hbits => ⟨?_, ?_⟩⟩
  · exact passes (allAlpha_alpha_cons i0 (allAlpha_alpha_cons i1 (allAlpha_nil a))) (k := 2) (by omega) rfl
  · refine (decodeText_two_pads hlen a i0 i1).trans ?_
    rw [hbits]
    exact (decodeText_two_pads hlen a i0 j).symm
  · exact passes (allAlpha_alpha_cons i0 (allAlpha_alpha_cons i1 (allAlpha_alpha_cons i2 (allAlpha_nil a)))) (k := 1)
      (by omega) rfl
  · refine (decodeText_one_pad hlen a i0 i1 i2).trans ?_
    rw [hbits]
    exact (decodeText_one_pad hlen a i0 i1 j).symm

end Sys2Proof.Proofs
end

/-! ## The other family, reads: words of a buffer, and reads while a command runs (R212, R277) -/

section
/-! SUPPORT. Words read from a buffer, and reads while a command runs. -/

namespace Sys2Proof.Machine

open Sys2Proof.Claims

/-! ### A word of a buffer (R212) -/

/-- Four byte reads are a range read of four cells joined by `le32` (R63). -/
theorem read4_rd_eq (m : Memory) (i d : Nat) :
    read4 (rd m) i d =
      (le32 ((rdRange m i 4 d).1.getD 0 0) ((rdRange m i 4 d).1.getD 1 0) ((rdRange m i 4 d).1.getD 2 0)
        ((rdRange m i 4 d).1.getD 3 0), (rdRange m i 4 d).2) := rfl

theorem byteLane_le32 (byte : Nat → Byte) {k : Nat} (hk : k < 4) :
    (le32 (byte 0) (byte 1) (byte 2) (byte 3)).extractLsb' (8 * k) 8 = byte k := by
  have hlanes := byteLanes_le32 (byte 0) (byte 1) (byte 2) (byte 3)
  simp only [byteLanes, byteLane, List.cons.injEq, and_true] at hlanes
  obtain ⟨h0, h1, h2, h3⟩ := hlanes
  match k with
  | 0 => exact h0
  | 1 => exact h1
  | 2 => exact h2
  | 3 => exact h3

/-- Only the bytes of the range matter. -/
theorem readsAs_congr {m : Memory} {i n d d' : Nat} {byte byte' : Nat → Byte} (hb : ∀ k, k < n → byte' k = byte k)
    (h : ReadsAs m i n d d' byte) : ReadsAs m i n d d' byte' := by
  obtain ⟨hle, hnone, hwritten, e, hdraw, hinj⟩ := h
  refine ⟨hle, hnone, fun k hk x hx => (hb k hk).trans (hwritten k hk x hx), e, fun k hk hc => ?_, hinj⟩
  rw [hb k hk]
  exact hdraw k hk hc

/-- The lanes of a word read from a buffer are its cells' own bytes or draws of their own (R40). -/
theorem readsAs_read4 (m : Memory) (i d : Nat) :
    ReadsAs m i 4 d (read4 (rd m) i d).2 (fun k => (read4 (rd m) i d).1.extractLsb' (8 * k) 8) := by
  rw [read4_rd_eq]
  exact readsAs_congr (fun _ => byteLane_le32 (fun k => (rdRange m i 4 d).1.getD k 0)) (readsAs_rdRange m i 4 d)

/-- An aligned R32 answers the word that `MemRead` gives (R212). -/
theorem exec_r32_of_memRead32 {off : Word} {s : State} {r : Word × Nat} (ha : off.toNat % 4 = 0)
    (h : memRead32 off s = some r) : exec (.r32 off) s = .next (afterRead s r.1 r.2) :=
  exec_read_some (not_isWrite_r32 off) ((readResult_r32_aligned ha s).trans h)

theorem exec_r32_readsAs {off : Word} {s : State} {m : Memory} {i : Nat} (ha : off.toNat % 4 = 0)
    (h : memRead32 off s = some (read4 (rd m) i s.draws)) :
    ∃ v d, exec (.r32 off) s = .next (afterRead s v d) ∧ ReadsAs m i 4 s.draws d (fun k => v.extractLsb' (8 * k) 8) :=
  ⟨_, _, exec_r32_of_memRead32 ha h, readsAs_read4 m i s.draws⟩

/-! ### While BUSY = 1 (R277) -/

/-- Four draws, the first in the lowest byte (log 21). -/
theorem draw32_eq (d : Nat) :
    draw32 d =
      (Config.draw8 (d + 3) ++ Config.draw8 (d + 2) ++ Config.draw8 (d + 1) ++ Config.draw8 d, d + 4) := rfl

theorem read4_rdDst_busy {b : BlockState} (h : b.busy = true) (i d : Nat) : read4 (rdDst b) i d = draw32 d := by
  simp only [read4, rdDst_busy h, draw32_eq]
  rfl

theorem exec_r32_dstLen_busy {s : State} (h : s.block.busy = true) : exec (.r32 0xC) s = answerRead (draw32 s.draws) s := by
  rw [exec_r32_dstLen, if_pos h]

theorem exec_r32_errIndex_busy {s : State} (h : s.block.busy = true) :
    exec (.r32 0x10) s = answerRead (draw32 s.draws) s := by
  rw [exec_r32_errIndex, if_pos h]

end Sys2Proof.Machine
end

section
/-! The obligations about reads. -/

namespace Sys2Proof.Proofs

open Sys2Proof.Machine Sys2Proof.Claims

/-- Settles O26: a word of either buffer is a range read of four cells. -/
theorem bufferWordReads : Obligations.BufferWordReads := by
  unfold Obligations.BufferWordReads
  intro off s hp ha
  refine ⟨fun hsrc => exec_r32_readsAs ha (memRead32_src hsrc), fun hdst hidle => exec_r32_readsAs ha ?_⟩
  rw [memRead32_dst hp hdst, rdDst_eq_rd hidle]

/-- Settles O28: the outputs and DST are read by `draw32` or `draw8`, and every other read is as on the idle block. -/
theorem readsWhileBusy : Obligations.ReadsWhileBusy := by
  unfold Obligations.ReadsWhileBusy
  intro s hp hbusy
  refine ⟨exec_r32_dstLen_busy hbusy, exec_r32_errIndex_busy hbusy, fun off hdst => ?_, fun off ha hdst => ?_,
    ⟨_, exec_r32_status s, ?_⟩, exec_r32_srcLen s, exec_r32_srcCap s, exec_r32_dstCap s, fun off v hsrc hv => ?_,
    fun off ha hsrc => exec_r32_readsAs ha (memRead32_src hsrc)⟩
  · exact exec_r8_of_memRead8 (by rw [memRead8_dst hp hdst, rdDst_busy hbusy])
  · exact exec_r32_of_memRead32 ha (by rw [memRead32_dst hp hdst, read4_rdDst_busy hbusy, draw32_eq])
  · have hbit := s.block.statusWord_getLsbD
    exact ⟨(hbit 0).trans hbusy, hbit 1, hbit 2, hbit 3, s.block.statusWord_errcode⟩
  · exact exec_r8_of_memRead8 (by rw [memRead8_src hsrc, rd_written hv])

end Sys2Proof.Proofs
end

/-! ## The other family, completions: what decides their outcome, and what they deliver (R15, R133, R244) -/

section
/-! SUPPORT. A completion's end as a function of its inputs, and the round trip of an encode and a decode. -/

namespace Sys2Proof.Machine

open Sys2Proof.Claims

/-! ### What decides a completion (R15, R131, R167) -/

/-- How a command ends that the latches select on the bytes of `SRC[0..SRC_LEN)`: its error and index, or its result. -/
def commandEnd (p : Config.Params) (opL : Bool) (a : Alphabet) (text : List Byte) : Except (ErrCode × Nat) (List Byte) :=
  if text.length > p.srcDepth then .error (.lenRange, 0)
  else if opL then
    match validate a text with
    | .fail code i => .error (code, i)
    | .ok k => if decodedLength text.length k > p.dstDepth then .error (.dstOverflow, 0) else .ok (decodeText a text k)
  else if encodedLength text.length > p.dstDepth then .error (.dstOverflow, 0)
  else .ok (encodeText a text)

/-- The block after a command that ends so. -/
def BlockState.endWith (b : BlockState) : Except (ErrCode × Nat) (List Byte) → BlockState
  | .error (code, index) => b.opError code index
  | .ok out => b.succeed out

/-- A completion sees nothing of the block but the latches, SRC_LEN and the bytes it reads. -/
theorem completeCommand_eq_endWith (p : Config.Params) (b : BlockState) (d : Nat) :
    (completeCommand p b d).1 =
      b.endWith (commandEnd p b.opL (alphabetOfLatch b.alphL) (rdRange b.src 0 b.srcLen.toNat d).1) := by
  rw [commandEnd, rdRange_length]
  cases hop : b.opL with
  | false =>
    rw [completeCommand_of_encode hop]
    obtain ⟨hn, h⟩ | ⟨hn, hm, h⟩ | ⟨hn, hm, h⟩ := completeEncode_cases p (alphabetOfLatch b.alphL) b d
    · rw [h, if_pos hn]
      rfl
    · rw [h, if_neg (Nat.not_lt.2 hn), if_neg Bool.false_ne_true, if_pos hm]
      rfl
    · rw [h, if_neg (Nat.not_lt.2 hn), if_neg Bool.false_ne_true, if_neg (Nat.not_lt.2 hm)]
      rfl
  | true =>
    rw [completeCommand_of_decode hop]
    obtain ⟨hn, h⟩ | ⟨hn, code, i, hv, h⟩ | ⟨hn, k, hv, hm, h⟩ | ⟨hn, k, hv, hm, h⟩ :=
      completeDecode_cases p (alphabetOfLatch b.alphL) b d
    · rw [h, if_pos hn]
      rfl
    · rw [h, if_neg (Nat.not_lt.2 hn), if_pos rfl, hv]
      rfl
    · rw [h, if_neg (Nat.not_lt.2 hn), if_pos rfl, hv]
      simp only [if_pos hm]
      rfl
    · rw [h, if_neg (Nat.not_lt.2 hn), if_pos rfl, hv]
      simp only [if_neg (Nat.not_lt.2 hm)]
      rfl

/-- Written cells are read alike whatever draws have been taken. -/
theorem rdRange_fst_congr {m m' : Memory} {i n : Nat} (h : ∀ k, k < n → m.cell (i + k) ≠ none ∧ m.cell (i + k) = m'.cell (i + k))
    (d d' : Nat) : (rdRange m i n d).1 = (rdRange m' i n d').1 := by
  refine List.ext_getElem? fun k => ?_
  obtain hk | hk := Nat.lt_or_ge k n
  · obtain ⟨hcell, heq⟩ := h k hk
    obtain ⟨v, hv⟩ := Option.ne_none_iff_exists'.1 hcell
    rw [rdRange_getElem?_written n m i d k hk v hv, rdRange_getElem?_written n m' i d' k hk v (heq ▸ hv)]
  · rw [List.getElem?_eq_none (by simpa using hk), List.getElem?_eq_none (by simpa using hk)]

/-! ### Encode, copy, decode (R133) -/

/-- A buffer that holds the bytes is read as they are, with no draw. -/
theorem rdRange_of_holds {m : Memory} {bytes : List Byte} (h : Holds m bytes) (d : Nat) :
    rdRange m 0 bytes.length d = (bytes, d) :=
  rdRange_written bytes m 0 d fun k hk => by rw [Nat.zero_add, h k hk, List.getElem?_eq_getElem hk]

section
variable {p : Config.Params} {b : BlockState} {bytes : List Byte} (hlen : b.srcLen.toNat = bytes.length)
include hlen

/-- An encode of written bytes whose text fits into DST ends with the text (R131). -/
theorem completeCommand_encode_holds (hop : b.opL = false) (hsrc : Holds b.src bytes) (hn : bytes.length ≤ p.srcDepth)
    (hm : encodedLength bytes.length ≤ p.dstDepth) (d : Nat) :
    completeCommand p b d = (b.succeed (encodeText (alphabetOfLatch b.alphL) bytes), d) := by
  rw [completeCommand_of_encode hop, completeEncode_success (hlen.trans_le hn) (by rwa [hlen]), hlen, rdRange_of_holds hsrc]

/-- A decode of a written text that passes and whose bytes fit into DST ends with the bytes (R167). -/
theorem completeCommand_decode_holds (hop : b.opL = true) (hsrc : Holds b.src bytes) (hn : bytes.length ≤ p.srcDepth)
    {k : Nat} (hv : validate (alphabetOfLatch b.alphL) bytes = .ok k) (hm : decodedLength bytes.length k ≤ p.dstDepth)
    (d : Nat) : completeCommand p b d = (b.succeed (decodeText (alphabetOfLatch b.alphL) bytes k), d) := by
  rw [completeCommand_of_decode hop]
  exact completeDecode_success (hlen.trans_le hn) (by rw [hlen, rdRange_of_holds hsrc]) hv (by rwa [hlen])

end

end Sys2Proof.Machine
end

section
/-! The obligations about completions. -/

namespace Sys2Proof.Proofs

open Sys2Proof.Machine Sys2Proof.Claims

/-- Settles O38: a completion is the error outcome, or a success whose result DST_LEN counts. -/
theorem completionAllOrNothing : Obligations.CompletionAllOrNothing := by
  unfold Obligations.CompletionAllOrNothing
  intro s t hinv hm h
  obtain ⟨-, herr, -⟩ := hinv.status.1 (busy_of_mover_block hm)
  rw [block_of_mover_block h hm]
  obtain ⟨code, i, he⟩ | ⟨out, hout, he⟩ := completeCommand_fits s.params s.block s.draws
  · rw [he]
    exact ⟨rfl, rfl, rfl, rfl, rfl, rfl, .inr ⟨rfl, rfl, rfl, rfl⟩⟩
  · have hlen := s.block.succeed_dstLen_toNat hinv.params hout
    rw [he]
    refine ⟨rfl, rfl, rfl, rfl, rfl, rfl, .inl ⟨rfl, herr, rfl, fun j hj => ?_, fun j hj => ?_⟩⟩
    · exact s.block.succeed_written (hj.trans_eq hlen)
    · exact cell_writeAll_of_le s.block.dst (hlen.symm.trans_le hj)

/-- Settles O39: both completions have the end that `commandEnd` gives for the one input. -/
theorem resultDependsOnInputsOnly : Obligations.ResultDependsOnInputsOnly := by
  unfold Obligations.ResultDependsOnInputsOnly
  intro s s' t t' hm hm' _ hparams hop halph hlen hsrc herr herr' hcode hcode' h h'
  have hread := rdRange_fst_congr (i := 0) (fun k hk => by simpa using hsrc k hk) s.draws s'.draws
  have hb := (block_of_mover_block h hm).trans (completeCommand_eq_endWith s.params s.block s.draws)
  have hb' := (block_of_mover_block h' hm').trans (completeCommand_eq_endWith s'.params s'.block s'.draws)
  rw [← hparams, ← hop, ← halph, ← hlen, ← hread] at hb'
  rw [hb, hb']
  cases commandEnd s.params s.block.opL (alphabetOfLatch s.block.alphL)
      (rdRange s.block.src 0 s.block.srcLen.toNat s.draws).1 with
  | error e => exact ⟨rfl, rfl, rfl, rfl, rfl, nofun⟩
  | ok out =>
    refine ⟨rfl, herr.trans herr'.symm, hcode.trans hcode'.symm, rfl, rfl, fun _ j hj => ?_⟩
    have hout : j < out.length := Nat.lt_of_lt_of_le hj (Nat.mod_le _ _)
    exact (holds_writeAll s.block.dst out j hout).trans (holds_writeAll s'.block.dst out j hout).symm

/-- Settles O40: the encode leaves the text in DST, and the decode reads its copy and leaves the input. -/
theorem encodeThenDecodeRoundTrip : Obligations.EncodeThenDecodeRoundTrip := by
  unfold Obligations.EncodeThenDecodeRoundTrip
  intro s u t d hp hm hop hlen hsrc hn hdst hcopy h hprog hparams hmu hopu halph hlenu hsrcu
  obtain ⟨a, ha⟩ : ∃ a, alphabetOfLatch s.block.alphL = a := ⟨_, rfl⟩
  have hcount : (encodeText a d).length = encodedLength d.length := encodeText_length a d
  have hb : t.block = s.block.succeed (encodeText a d) := by
    rw [block_of_mover_block h hm, completeCommand_encode_holds hlen hop hsrc hn hdst, ha]
  have htext : t.block.dstLen.toNat = (encodeText a d).length := by
    rw [hb, s.block.succeed_dstLen_toNat hp (hcount.trans_le hdst)]
  have hholds : Holds u.block.src (encodeText a d) := fun i hi => by
    rw [hsrcu i (hi.trans_eq htext.symm), hb]
    exact holds_writeAll s.block.dst (encodeText a d) i hi
  obtain ⟨k, hv, hdecode⟩ := decodeInvertsEncode a d
  have hout : d.length ≤ u.params.dstDepth := by
    rw [hparams]
    omega
  have hfits : decodedLength (encodeText a d).length k ≤ u.params.dstDepth := by
    rwa [← decodeText_length a, hdecode]
  have hend := completeCommand_decode_holds (hlenu ▸ htext) hopu hholds (by rw [hparams]; exact hcount.trans_le hcopy)
    (by rw [halph, ha, hv]) hfits u.draws
  rw [halph, ha, hdecode] at hend
  refine ⟨_, step_block hprog hmu, ?_⟩
  rw [blockStep_block, State.takeTurn_params, State.takeTurn_block, State.takeTurn_draws, hend]
  exact ⟨rfl, u.block.succeed_dstLen_toNat (hparams ▸ hp) hout, holds_writeAll u.block.dst d⟩

end Sys2Proof.Proofs
end

/-! ## The other family, steps: who moves, the host agent and its fault, and what a running command sees (R80, R214, R247, R249) -/

section
/-! SUPPORT. Who moves, what a running host does at each statement, and the step of a placed instruction. -/

namespace Sys2Proof.Machine

open Sys2Proof.Claims

/-! ### Who moves (log 1, log 2) -/

theorem mover_of_reset_turn {s : State} {rest : List Turn} (h : s.turns = .reset :: rest) : s.mover = .reset := by
  rw [State.mover, h]

theorem mover_of_host_turn {s : State} {rest : List Turn} (h : s.turns = .host :: rest) (hs : s.host.status = .running) :
    s.mover = .host := by
  rw [State.mover, h]
  exact if_neg fun hstop => hstop.1 hs

theorem mover_of_no_turn {s : State} (h : s.turns = []) (hbusy : s.block.busy = true) : s.mover = .block := by
  rw [State.mover, h]
  exact if_pos hbusy

/-- Beside a running command only a running host moves. -/
theorem running_of_mover_host {s : State} (hbusy : s.block.busy = true) (hm : s.mover = .host) :
    s.host.status = .running := by
  by_contra hs
  unfold State.mover at hm
  split at hm
  · cases hm
  · rw [if_pos ⟨hs, hbusy⟩] at hm
    cases hm
  · rw [if_pos hbusy] at hm
    cases hm
  · rw [if_pos hbusy] at hm
    cases hm

/-- Beside an idle block every turn but a reset is the host's. -/
theorem mover_host_of_idle {s : State} (hidle : s.block.busy = false) (hm : s.mover ≠ .reset) : s.mover = .host := by
  cases h : s.mover with
  | host => rfl
  | reset => exact absurd h hm
  | block => simp [busy_of_mover_block h] at hidle

/-! ### A running host's statement (R108, R214) -/

theorem HostAgent.fetch_of_getElem? {h : HostAgent} {st : Stmt} (hst : h.program[h.pc]? = some st) : h.fetch = st := by
  rw [HostAgent.fetch, hst]
  rfl

/-- A host past its last statement stops as if at HALT. -/
theorem HostAgent.fetch_of_length_le {h : HostAgent} (hpc : h.program.length ≤ h.pc) : h.fetch = .halt := by
  rw [HostAgent.fetch, List.getElem?_eq_none hpc]
  rfl

theorem HostAgent.branch_of_read {h : HostAgent} {v : Word} (hv : h.lastRead = some v) (taken : Word → Bool) (k : Nat) :
    h.branch taken k = { h with pc := if taken v then k else h.pc + 1 } := by
  rw [HostAgent.branch, hv]

theorem HostAgent.branch_of_no_read {h : HostAgent} (hv : h.lastRead = none) (taken : Word → Bool) (k : Nat) :
    h.branch taken k = h.fault := by
  rw [HostAgent.branch, hv]

theorem HostAgent.bnz_of_read {h : HostAgent} {v : Word} (hv : h.lastRead = some v) (mask : Word) (k : Nat) :
    h.bnz mask k = { h with pc := if v &&& mask ≠ 0 then k else h.pc + 1 } := by
  simp only [HostAgent.bnz, branch_of_read hv, decide_eq_true_eq]

theorem HostAgent.bz_of_read {h : HostAgent} {v : Word} (hv : h.lastRead = some v) (mask : Word) (k : Nat) :
    h.bz mask k = { h with pc := if v &&& mask = 0 then k else h.pc + 1 } := by
  simp only [HostAgent.bz, branch_of_read hv, decide_eq_true_eq]

/-- Where the host goes at a statement that issues no transaction. -/
def HostAgent.afterStmt (h : HostAgent) : Stmt → HostAgent
  | .txn _ => h
  | .bnz mask target => h.bnz mask target
  | .bz mask target => h.bz mask target
  | .halt => h.halt

section
variable {s : State} (hp : programWf s.host.program = true) (hm : s.mover = .host) (hs : s.host.status = .running)
include hp hm hs

/-- A running host's step at a transaction. -/
theorem step_txn {x : HostTxn} (hf : s.host.fetch = .txn x) : step s = exec (decodeTxn x) s.takeTurn := by
  rw [step_host hp hm, hostStep_txn (s := s.takeTurn) hs hf]

/-- A running host's step at any other statement changes the host alone. -/
theorem step_stmt {st : Stmt} (hf : s.host.fetch = st) (hst : ∀ x, st ≠ .txn x) :
    step s = .next { s with host := s.host.afterStmt st, turns := s.turns.tail } := by
  rw [step_host hp hm, hostStep, State.takeTurn_host, hs, hf]
  cases st with
  | txn x => exact absurd rfl (hst x)
  | bnz | bz | halt => rfl

end

/-- A transaction that is no bus error goes to the next statement. -/
theorem exec_pc {i : Instr} {s t : State} (h : exec i s = .next t) (hr : t.host.resp ≠ some .busError) :
    t.host.pc = s.host.pc + 1 := by
  obtain ⟨r, he⟩ | he | ⟨f, -, he⟩ := exec_cases i s
  · cases he.symm.trans h
    rfl
  · cases he.symm.trans h
    exact absurd rfl hr
  · cases he.symm.trans h
    rfl

/-- A program with a branch to no statement is ill-formed (R214). -/
theorem not_programWf {prog : List Stmt} {st : Stmt} (hst : st ∈ prog) (hwf : st.wf prog.length = false) :
    ¬ programWf prog = true := fun hp => by
  simp [(programWf_iff prog).1 hp st hst] at hwf

/-! ### The host fault (R247) -/

/-- Only a bus error answers BUS_ERROR. -/
theorem of_exec_busError {i : Instr} {s t : State} (h : exec i s = .next t) (hr : t.host.resp = some .busError) :
    t = { s with host := s.host.busError } := by
  obtain ⟨r, he⟩ | he | ⟨f, -, he⟩ := exec_cases i s
  · cases he.symm.trans h
    cases hr
  · cases he.symm.trans h
    rfl
  · cases he.symm.trans h
    cases hr

theorem hostStep_faulted {s : State} {k : Nat} (h : s.host.status = .faulted k) : hostStep s = .fault (.hostFaulted k) := by
  rw [hostStep, h]

/-- A faulted host makes no step, so a step to a next state beside it is the block's or a reset. -/
theorem host_of_faulted {s t : State} {k : Nat} (hf : s.host.status = .faulted k) (h : step s = .next t) : t.host = s.host := by
  obtain ⟨-, ⟨-, rfl⟩ | ⟨-, -, rfl⟩ | ⟨-, hh⟩⟩ := step_cases h
  · rfl
  · rfl
  · rw [hostStep_faulted (s := s.takeTurn) hf] at hh
    cases hh

/-! ### A running command (R82, R215, R249) -/

theorem completeCommand_src (p : Config.Params) (b : BlockState) (d : Nat) : (completeCommand p b d).1.src = b.src := by
  obtain ⟨code, i, h⟩ | ⟨out, h⟩ := completeCommand_cases p b d
  · rw [h, BlockState.opError_src]
  · rw [h, BlockState.succeed_src]

/-- A block turn beside a running command is its completion, which leaves OVR, SRC, SRC_LEN and the host. -/
theorem exists_completion {s : State} {rest : List Turn} (hp : programWf s.host.program = true)
    (hbusy : s.block.busy = true) (hturns : s.turns = .block :: rest) :
    ∃ t, step s = .next t ∧ t.block.busy = false ∧ t.block.src = s.block.src ∧ t.block.srcLen = s.block.srcLen ∧
      t.block.ovr = s.block.ovr ∧ t.host = s.host ∧ t.params = s.params ∧ t.turns = rest :=
  ⟨_, step_block hp (mover_of_block_turn hturns hbusy), completeCommand_busy .., completeCommand_src ..,
    completeCommand_srcLen .., completeCommand_ovr .., rfl, rfl, congrArg List.tail hturns⟩

/-- A step beside a running command is possible, and only a turn of the host leaves BUSY = 1. -/
theorem exists_step_of_busy {s : State} (hp : programWf s.host.program = true) (hbusy : s.block.busy = true) :
    ∃ t, step s = .next t ∧ (t.block.busy = true → s.turns ≠ [] ∧ t.turns = s.turns.tail) := by
  cases hm : s.mover with
  | reset => exact ⟨_, step_reset hp hm, nofun⟩
  | block =>
    refine ⟨_, step_block hp hm, fun h => ?_⟩
    rw [blockStep_block, completeCommand_busy] at h
    cases h
  | host =>
    have hs := running_of_mover_host hbusy hm
    have hturns : s.turns ≠ [] := fun h => by simp [mover_of_no_turn h hbusy] at hm
    cases hf : s.host.fetch with
    | txn x =>
      obtain ⟨t, ht, -, hrest, -⟩ := exec_next (decodeTxn x) s.takeTurn
      exact ⟨t, (step_txn hp hm hs hf).trans ht, fun _ => ⟨hturns, hrest⟩⟩
    | bnz | bz | halt => exact ⟨_, step_stmt hp hm hs hf nofun, fun _ => ⟨hturns, rfl⟩⟩

/-- Each step uses up a turn or clears BUSY, so the schedule's end is the last step a command can wait for. -/
theorem exists_run_of_busy {s : State} (hp : programWf s.host.program = true) (hbusy : s.block.busy = true) :
    ∃ k t, k ≤ s.turns.length + 1 ∧ Host.Core.run Sys2Proof.core k s = .next t ∧ t.block.busy = false := by
  induction hn : s.turns.length generalizing s with
  | zero =>
    obtain ⟨t, ht, hleft⟩ := exists_step_of_busy hp hbusy
    refine ⟨1, t, Nat.le_refl 1, core_run_next ht, ?_⟩
    exact Bool.eq_false_iff.2 fun h => (hleft h).1 (List.length_eq_zero_iff.1 hn)
  | succ n ih =>
    obtain ⟨t, ht, hleft⟩ := exists_step_of_busy hp hbusy
    cases hb : t.block.busy with
    | false => exact ⟨1, t, by omega, core_run_next ht, hb⟩
    | true =>
      have hlen : t.turns.length = n := by
        rw [(hleft hb).2, List.length_tail, hn]
        rfl
      obtain ⟨k, u, hk, hrun, hu⟩ := ih (by rwa [(step_keeps_params_program ht).2]) hb hlen
      exact ⟨k + 1, u, by omega, (core_run_next ht).trans hrun, hu⟩

/-! ### Along an event of R43 -/

/-- Of a command that keeps running a step can change OVR alone (R80). -/
theorem BlockEvent.busy_stays {s : State} {b : BlockState} (e : BlockEvent s b) (hs : s.block.busy = true)
    (hb : b.busy = true) : b = { s.block with ovr := b.ovr } := by
  cases e with
  | ignored _ _ _ _ _ h =>
    subst h
    rfl
  | unchanged _ h =>
    subst h
    rfl
  | _ => simp_all

section
variable {s : State} {b : BlockState} (e : BlockEvent s b) (hr : s.mover ≠ .reset)
include e hr

theorem BlockEvent.src_written (hb : b.src ≠ s.block.src) : s.block.busy = false ∧ ∃ off data,
    (Issues s (.w8 off data) ∧ InSrc s.params off 1) ∨ (Issues s (.w32 off data) ∧ InSrc s.params off 4) := by
  cases e with
  | srcWritten hidle off data _ _ hi => exact ⟨hidle, off, data, hi⟩
  | _ => simp_all

theorem BlockEvent.srcLen_written (hb : b.srcLen ≠ s.block.srcLen) :
    s.block.busy = false ∧ Issues s (.w32 0x8 b.srcLen) := by
  cases e with
  | srcLenWritten hidle v hi h =>
    subst h
    exact ⟨hidle, hi⟩
  | _ => simp_all

theorem BlockEvent.dst_written (hb : b.dst ≠ s.block.dst) : s.mover = .block ∧ b.done = true := by
  cases e with
  | succeeded hm _ out h =>
    subst h
    exact ⟨hm, rfl⟩
  | _ => simp_all

theorem BlockEvent.dstLen_written (hb : b.dstLen ≠ s.block.dstLen) :
    s.mover = .block ∨ ∃ w r, Issues s (.w32 0x0 w) ∧ decode (.cmd w) = .error r := by
  cases e with
  | failed hm | succeeded hm => exact .inl hm
  | reserved _ w r hw hi => exact .inr ⟨w, r, hi, hw⟩
  | _ => simp_all

end

/-! ### A write on the idle block (R249) -/

theorem byteLanes_getElem? (data : Word) {k : Nat} (hk : k < 4) : (byteLanes data)[k]? = some (byteLane data k) := by
  match k with
  | 0 | 1 | 2 | 3 => rfl

/-- The cells of a word written into SRC. -/
theorem BlockState.writeSrc_byteLanes_cell (b : BlockState) (i : Nat) (data : Word) {k : Nat} (hk : k < 4) :
    (b.writeSrc i (byteLanes data)).src.cell (i + k) = some (byteLane data k) := by
  rw [BlockState.writeSrc_src, Memory.cell_writeAll, if_pos ⟨Nat.le_add_right i k, Nat.add_lt_add_left hk i⟩,
    Nat.add_sub_cancel_left, byteLanes_getElem? data hk]

/-- Of the commands, those of the data words raise BUSY. -/
theorem commandEffect_busy_iff {b : BlockState} (hidle : b.busy = false) {w : Word} {c : Command} (hw : decodeCmd w = .ok c) :
    (commandEffect c b).busy = true ↔ w ∈ dataWords := by
  obtain ⟨rfl, rfl⟩ | ⟨rfl, rfl⟩ | ⟨rfl, rfl⟩ | ⟨rfl, rfl⟩ | ⟨rfl, rfl⟩ | ⟨rfl, rfl⟩ := decodeCmd_ok hw <;>
    simp [commandEffect, hidle]

theorem not_mem_dataWords {w : Word} {r : DecodeReject} (hw : decodeCmd w = .error r) : w ∉ dataWords := fun h => by
  obtain ⟨c, hc, -⟩ := decodeCmd_clearing (.inl h)
  cases hc.symm.trans hw

section
variable {s t : State} (hidle : s.block.busy = false)
include hidle

/-- A host write on the idle block leaves the block as its effect does. -/
theorem block_of_exec_idle {i : Instr} {f : BlockState → BlockState} (hf : HostWrite s.params i f)
    (h : exec i s = .next t) : t.block = f s.block := by
  cases (exec_hostWrite_idle hidle hf).symm.trans h
  rfl

theorem exec_w8_idle {off data : Word} (hin : InSrc s.params off 1) (h : exec (.w8 off data) s = .next t) :
    t.block.ovr = s.block.ovr ∧ t.block.src.cell (off.toNat - 0x10000) = some (data.extractLsb' 0 8) := by
  rw [block_of_exec_idle hidle (.srcByte off data ((inSrc_iff _ off (by omega)).2 hin)) h]
  exact ⟨rfl, (Memory.cell_write ..).trans (if_pos rfl)⟩

theorem exec_w32_srcLen_idle {data : Word} (h : exec (.w32 0x8 data) s = .next t) :
    t.block.ovr = s.block.ovr ∧ t.block.srcLen = data := by
  rw [block_of_exec_idle hidle (.srcLen data) h]
  exact ⟨rfl, rfl⟩

theorem exec_w32_src_idle {off data : Word} (ha : off.toNat % 4 = 0) (hin : InSrc s.params off 4)
    (h : exec (.w32 off data) s = .next t) :
    t.block.ovr = s.block.ovr ∧
      ∀ k, k < 4 → t.block.src.cell (off.toNat - 0x10000 + k) = some (data.extractLsb' (8 * k) 8) := by
  rw [block_of_exec_idle hidle (.srcWord off data ((aligned_iff off).2 ha) ((inSrc_iff _ off (by omega)).2 hin)) h]
  exact ⟨rfl, fun k => s.block.writeSrc_byteLanes_cell (off.toNat - 0x10000) data⟩

theorem exec_w32_reserved_idle {w : Word} {r : DecodeReject} (hw : decodeCmd w = .error r)
    (h : exec (.w32 0x0 w) s = .next t) : t.block = errorBlock s.block 1 0 :=
  block_of_exec_idle hidle (.reserved w r hw) h

/-- On the idle block the data words raise BUSY, and no other word does (R25). -/
theorem exec_w32_cmd_busy_iff {w : Word} (h : exec (.w32 0x0 w) s = .next t) : w ∈ dataWords ↔ t.block.busy = true := by
  cases hw : decodeCmd w with
  | ok c => rw [block_of_exec_idle hidle (.cmdWord w c hw) h, commandEffect_busy_iff hidle hw]
  | error r =>
    rw [exec_w32_reserved_idle hidle hw h]
    exact iff_of_false (not_mem_dataWords hw) Bool.false_ne_true

end

/-! ### Placing an instruction (log 9, log 10) -/

theorem setStmt_getElem? (st : Stmt) (i : Nat) (prog : List Stmt) : (setStmt st i prog)[i]? = some st := by
  induction i, prog using setStmt.induct with
  | case1 | case2 => rfl
  | case3 i ih => exact ih
  | case4 i x rest ih => exact ih

theorem length_le_setStmt (st : Stmt) (i : Nat) (prog : List Stmt) : prog.length ≤ (setStmt st i prog).length := by
  induction i, prog using setStmt.induct with
  | case1 | case3 => exact Nat.zero_le _
  | case2 => exact Nat.le_refl _
  | case4 i x rest ih => exact Nat.succ_le_succ ih

theorem mem_setStmt {st x : Stmt} {i : Nat} {prog : List Stmt} (h : x ∈ setStmt st i prog) :
    x = st ∨ x = .halt ∨ x ∈ prog := by
  induction i, prog using setStmt.induct with
  | case1 => exact .inl (by simpa [setStmt] using h)
  | case2 y rest => exact (List.mem_cons.1 h).imp_right fun h => .inr (List.mem_cons_of_mem y h)
  | case3 i ih =>
    obtain rfl | h := List.mem_cons.1 h
    · exact .inr (.inl rfl)
    · exact ih h
  | case4 i y rest ih =>
    obtain rfl | h := List.mem_cons.1 h
    · exact .inr (.inr List.mem_cons_self)
    · exact (ih h).imp_right (Or.imp_right (List.mem_cons_of_mem y))

/-- A branch's target stays in a program that grows. -/
theorem Stmt.wf_mono {st : Stmt} {n m : Nat} (hnm : n ≤ m) (h : st.wf n = true) : st.wf m = true := by
  cases st with
  | txn | halt => rfl
  | bnz mask k | bz mask k => exact decide_eq_true (Nat.lt_of_lt_of_le (of_decide_eq_true h) hnm)

/-- Placing a transaction keeps a program well formed. -/
theorem programWf_setStmt {prog : List Stmt} (hp : programWf prog = true) (x : HostTxn) (i : Nat) :
    programWf (setStmt (.txn x) i prog) = true := by
  refine (programWf_iff _).2 fun st hst => ?_
  obtain rfl | rfl | hold := mem_setStmt hst
  · rfl
  · rfl
  · exact Stmt.wf_mono (length_le_setStmt _ i prog) ((programWf_iff prog).1 hp st hold)

/-- Placing replaces an ill-formed program, so the placed one always runs. -/
theorem HostAgent.programWf_withNext (x : HostTxn) (h : HostAgent) : programWf (h.withNext x).program = true := by
  refine programWf_setStmt ?_ x h.pc
  split
  · assumption
  · rfl

theorem HostAgent.fetch_withNext (x : HostTxn) (h : HostAgent) : (h.withNext x).fetch = .txn x :=
  fetch_of_getElem? (setStmt_getElem? _ h.pc _)

/-- The transaction that delivers an encoded instruction has its meaning (R198). -/
theorem exec_deliver {x : InstrWord} {i : Instr} (h : decode x = .ok i) (s : State) :
    exec (decodeTxn (deliver x)) s = exec i s := by
  cases x with
  | cmd w =>
    obtain ⟨c, hc, rfl⟩ := decode_cmd_eq_ok_iff.1 h
    exact (cmdWrite_command hc s).trans (exec_command c s).symm
  | txn t =>
    cases h
    rfl

end Sys2Proof.Machine
end

section
/-! The obligations about the step, the schedule and the host agent. -/

namespace Sys2Proof.Proofs

open Sys2Proof.Machine Sys2Proof.Claims

/-- Settles O42: a reset turn's step is the reset event. -/
theorem resetEventResetsBlock : Obligations.ResetEventResetsBlock := by
  unfold Obligations.ResetEventResetsBlock
  intro s rest hp hturns
  refine ⟨.reset, ?_, rfl, rfl, rfl, rfl, rfl, rfl, rfl, rfl, fun _ => ⟨rfl, rfl⟩⟩
  rw [step_reset hp (mover_of_reset_turn hturns), resetEvent, State.takeTurn, hturns]
  rfl

/-- Settles O41: the reset block's fields. -/
theorem resetValues : Obligations.ResetValues := by
  unfold Obligations.ResetValues
  exact ⟨rfl, rfl, rfl, rfl, fun _ => ⟨rfl, rfl⟩⟩

/-- Settles O43: the host's step at a transaction. -/
theorem stepRunsDecodedInstruction : Obligations.StepRunsDecodedInstruction := by
  unfold Obligations.StepRunsDecodedInstruction
  intro s x i hp hm hs hx hi
  cases hi
  exact step_txn hp hm hs (HostAgent.fetch_of_getElem? hx)

/-- Settles O44: the placed transaction stands at the pc of a well-formed program, and has the instruction's meaning. -/
theorem fetchWordRunsNext : Obligations.FetchWordRunsNext := by
  unfold Obligations.FetchWordRunsNext
  intro s nbits w i h
  have hdecode := decodeTableWord_eq_some_iff.1 h
  refine ⟨s.host.withNext (deliver (.ofTable nbits w)), rfl, rfl, rfl, ?_⟩
  rw [State.withFetchWord, step_txn (HostAgent.programWf_withNext _ _) (mover_of_host_turn rfl rfl) rfl
    (HostAgent.fetch_withNext _ _), exec_deliver hdecode]
  rfl

/-- Settles O52, over the events. -/
theorem buffersAndLengthsWriters : Obligations.BuffersAndLengthsWriters := by
  unfold Obligations.BuffersAndLengthsWriters
  intro s t h hr
  have e := blockEvent_of_step h
  exact ⟨e.src_written hr, e.srcLen_written hr, e.dst_written hr, e.dstLen_written hr⟩

/-- Settles O53: of the events that leave a running command running, only an ignored write touches the block. -/
theorem runningCommandSeesItsInputs : Obligations.RunningCommandSeesItsInputs := by
  unfold Obligations.RunningCommandSeesItsInputs
  intro s t h hs ht
  exact ⟨(blockEvent_of_step h).busy_stays hs ht, (step_keeps_params_program h).1⟩

/-- Settles O54: before the completion the write meets BUSY = 1, and after it the write has its effect on the idle block. -/
theorem writeAndCompletionBothOrders : Obligations.WriteAndCompletionBothOrders := by
  unfold Obligations.WriteAndCompletionBothOrders
  intro s x i hp hbusy hs hx hi hwrite hperm
  cases hi
  have hfetch := HostAgent.fetch_of_getElem? hx
  obtain ⟨f, hf⟩ := exists_hostWrite hwrite hperm
  constructor
  · have hfirst := (step_txn (s := { s with turns := [.host, .block] }) hp (mover_of_host_turn rfl hs) hs hfetch).trans
      (exec_hostWrite_busy hbusy hf)
    obtain ⟨u, hu, hidle, hsrc, hlen, hovr, -⟩ := exists_completion (s := { s with
      block := { s.block with ovr := true }, host := s.host.answerWrite, turns := [.block] }) hp hbusy rfl
    exact ⟨_, hfirst, rfl, u, hu, hidle, hovr, hsrc, hlen⟩
  · obtain ⟨t, hfirst, hidle, hsrc, hlen, hovr, hhost, hparams, hturns⟩ :=
      exists_completion (s := { s with turns := [.block, .host] }) hp hbusy rfl
    refine ⟨t, hfirst, hidle, hsrc, hlen, hovr, ?_⟩
    have htake : t.takeTurn = { t with turns := [] } := by rw [State.takeTurn, hturns]; rfl
    obtain ⟨u, hu, -⟩ := exec_next (decodeTxn x) { t with turns := [] }
    rw [← hhost] at hp hs hfetch
    rw [← hparams] at hperm
    have hsecond := step_txn hp (mover_of_host_turn hturns hs) hs hfetch
    rw [htake, hu] at hsecond
    have hidle' : ({ t with turns := [] } : State).block.busy = false := hidle
    refine ⟨u, hsecond, hu, fun off data h => ?_, fun data h => ?_, fun off data h hin => ?_, fun w c h hc => ?_,
      fun w h => ?_, fun w r h hr => ?_⟩ <;> rw [h] at hu hperm
    · obtain ⟨hu, hcell⟩ := exec_w8_idle hidle' hperm hu
      exact ⟨hu.trans hovr, hcell⟩
    · obtain ⟨hu, hlen⟩ := exec_w32_srcLen_idle hidle' hu
      exact ⟨hu.trans hovr, hlen⟩
    · rw [← hparams] at hin
      obtain ⟨ha, -⟩ := (permitted_w32_iff t.params off data).1 hperm
      obtain ⟨hu, hcells⟩ := exec_w32_src_idle hidle' ha hin hu
      exact ⟨hu.trans hovr, hcells⟩
    · rwa [← (cmdWriteDispatches w _).1 c hc]
    · exact exec_w32_cmd_busy_iff hidle' hu
    · exact exec_w32_reserved_idle (s := { t with turns := [] }) hidle (decode_cmd_eq_error_iff.1 hr) hu

/-- Settles O55: each step beside a running command uses up a turn or clears BUSY. -/
theorem acceptedCommandCompletes : Obligations.AcceptedCommandCompletes := by
  unfold Obligations.AcceptedCommandCompletes
  exact fun s => exists_run_of_busy

/-- Settles O56: a bad branch makes the program ill-formed, and in a well-formed one each statement has its own step. -/
theorem hostControlFlow : Obligations.HostControlFlow := by
  unfold Obligations.HostControlFlow
  refine fun s => ⟨fun ⟨st, hst, mask, k, hbranch, hk⟩ => ?_, fun hp hm hs => ⟨fun mask k v hx hv => ?_, fun mask k v hx hv => ?_,
    fun hx => ?_, fun hpc => ?_, fun x t hx h hr => ?_⟩⟩
  · have hwf : st.wf s.host.program.length = false := by
      obtain rfl | rfl := hbranch <;> exact decide_eq_false (Nat.not_lt.2 hk)
    rw [step, if_neg (not_programWf hst hwf)]
  · rw [step_stmt hp hm hs (HostAgent.fetch_of_getElem? hx) nofun, HostAgent.afterStmt, HostAgent.bnz_of_read hv]
    exact ⟨fun h => by rw [if_pos h], fun h => by rw [if_neg (not_not.2 h)]⟩
  · rw [step_stmt hp hm hs (HostAgent.fetch_of_getElem? hx) nofun, HostAgent.afterStmt, HostAgent.bz_of_read hv]
    exact ⟨fun h => by rw [if_pos h], fun h => by rw [if_neg h]⟩
  · exact step_stmt hp hm hs (HostAgent.fetch_of_getElem? hx) nofun
  · exact step_stmt hp hm hs (HostAgent.fetch_of_length_le hpc) nofun
  · rw [step_txn hp hm hs (HostAgent.fetch_of_getElem? hx)] at h
    exact exec_pc (s := s.takeTurn) h hr

/-- Settles O57: before any read a branch is the host's fault. -/
theorem branchBeforeReadFaults : Obligations.BranchBeforeReadFaults := by
  unfold Obligations.BranchBeforeReadFaults
  intro s mask k hp hm hs hread hx
  obtain hx | hx := hx
  · rw [step_stmt hp hm hs (HostAgent.fetch_of_getElem? hx) nofun, HostAgent.afterStmt, HostAgent.bnz,
      HostAgent.branch_of_no_read hread]
    rfl
  · rw [step_stmt hp hm hs (HostAgent.fetch_of_getElem? hx) nofun, HostAgent.afterStmt, HostAgent.bz,
      HostAgent.branch_of_no_read hread]
    rfl

/-- Settles O58: a faulted host has no step, so beside it the block or a reset moves, and with neither the machine stops. -/
theorem hostFaultIsForever : Obligations.HostFaultIsForever := by
  unfold Obligations.HostFaultIsForever
  refine ⟨fun i s t h hr => ?_, fun s t k => host_of_faulted, fun s k hp hf hbusy => ?_, fun s k hp hf hidle hr => ?_⟩
  · rw [of_exec_busError h hr]
    exact ⟨rfl, rfl⟩
  · cases hm : s.mover with
    | reset => exact ⟨_, step_reset hp hm, rfl⟩
    | block => exact ⟨_, step_block hp hm, completeCommand_busy ..⟩
    | host =>
      rw [running_of_mover_host hbusy hm] at hf
      cases hf
  · rw [step_host hp (mover_host_of_idle hidle hr)]
    exact hostStep_faulted hf

end Sys2Proof.Proofs
end

/-! ## The other family, written programs: every accepted one is well formed (R108, R214) -/

section
/-! SUPPORT. The branches of a written program that is accepted. -/

namespace Sys2Proof.Machine

/-- With no label problem every label names a statement of the program (R214). -/
theorem lt_of_labelProblem_none {n : Nat} {table : List (String × Nat)} (h : labelProblem n table = none) :
    ∀ e ∈ table, e.2 < n := by
  induction table with
  | nil => nofun
  | cons e rest ih =>
    obtain ⟨name, k⟩ := e
    rw [labelProblem] at h
    split at h
    · cases h
    · split at h
      · cases h
      · exact List.forall_mem_cons.2 ⟨Nat.lt_of_not_le ‹_›, ih h⟩

theorem resolved_lt {n : Nat} {table : List (String × Nat)} (htable : ∀ e ∈ table, e.2 < n) {name : String} {k : Nat}
    (h : table.lookup name = some k) : k < n := by
  obtain ⟨front, back, rfl, -⟩ := List.lookup_eq_some_iff.1 h
  exact htable (name, k) (by simp)

/-- A load is made of transactions alone (R109). -/
theorem expandLoad_wf (n : Nat) {bytes : List Byte} {st : Stmt} (hst : st ∈ expandLoad bytes) : st.wf n = true := by
  rw [expandLoad, List.mem_append, List.mem_mapIdx, List.mem_singleton] at hst
  obtain ⟨i, hi, rfl⟩ | rfl := hst <;> rfl

/-- A WAIT branches to its own first statement (R109). -/
theorem expandWait_wf {n k : Nat} (hk : k < n) {st : Stmt} (hst : st ∈ expandWait k) : st.wf n = true := by
  simp only [expandWait, List.mem_cons, List.not_mem_nil, or_false] at hst
  obtain rfl | rfl := hst
  · rfl
  · exact decide_eq_true hk

section
variable {n : Nat} {table : List (String × Nat)} (htable : ∀ e ∈ table, e.2 < n)
include htable

/-- A line's branches go to labels, or stay within the line's own statements. -/
theorem expandLine_wf {k : Nat} {line : SrcLine} {here : List Stmt} (h : expandLine table k line = .ok here)
    (hn : k + lineSize line ≤ n) : ∀ st ∈ here, st.wf n = true := by
  intro st hst
  cases line with
  | r8 | r32 | w8 | w32 | halt =>
    cases h
    rw [List.mem_singleton.1 hst]
    rfl
  | label name =>
    cases h
    cases hst
  | bnz mask name | bz mask name =>
    obtain ⟨target, htarget, rfl⟩ := map_resolve_ok h
    rw [List.mem_singleton.1 hst]
    exact decide_eq_true (resolved_lt htable htarget)
  | wait =>
    cases h
    have hwait : k + 2 ≤ n := hn
    exact expandWait_wf (by omega) hst
  | load text =>
    rw [expandLine] at h
    split at h <;> cases h
    exact expandLoad_wf n hst
  | loadb bytes =>
    cases h
    exact expandLoad_wf n hst
  | run cmd =>
    cases h
    obtain rfl | hst := List.mem_cons.1 hst
    · rfl
    · have hwait : k + 3 ≤ n := hn
      exact expandWait_wf (by omega) hst

theorem expandAll_wf {k : Nat} {lines : List SrcLine} {prog : List Stmt} (h : expandAll table k lines = .ok prog)
    (hn : k + programSize lines ≤ n) : ∀ st ∈ prog, st.wf n = true := by
  induction lines generalizing k prog with
  | nil =>
    cases h
    nofun
  | cons line rest ih =>
    obtain ⟨here, later, hline, hlater, rfl⟩ := expandAll_cons_ok.1 h
    have hsize : k + lineSize line + programSize rest ≤ n := by
      simpa [programSize, Nat.add_assoc] using hn
    exact List.forall_mem_append.2 ⟨expandLine_wf htable hline (by omega), ih hlater hsize⟩

end

/-- A program has as many statements as its lines together. -/
theorem expandAll_length {table : List (String × Nat)} {k : Nat} {lines : List SrcLine} {prog : List Stmt}
    (h : expandAll table k lines = .ok prog) : prog.length = programSize lines := by
  induction lines generalizing k prog with
  | nil =>
    cases h
    rfl
  | cons line rest ih =>
    obtain ⟨here, later, hline, hlater, rfl⟩ := expandAll_cons_ok.1 h
    rw [List.length_append, expandLine_length hline, ih hlater]
    rfl

theorem labelProblem_of_assemble {lines : List SrcLine} {prog : List Stmt} (h : assemble lines = .ok prog) :
    labelProblem (programSize lines) (labelTable 0 lines) = none := by
  unfold assemble at h
  cases hp : labelProblem (programSize lines) (labelTable 0 lines) with
  | none => rfl
  | some e =>
    simp only [hp] at h
    cases h

end Sys2Proof.Machine
end

section
/-! The obligation about written programs. -/

namespace Sys2Proof.Proofs

open Sys2Proof.Machine Sys2Proof.Claims

/-- Settles O60: every label names a statement, and a pseudo-instruction branches within its own statements. -/
theorem assembledProgramsWellFormed : Obligations.AssembledProgramsWellFormed := by
  unfold Obligations.AssembledProgramsWellFormed
  intro lines prog h
  have hall := expandAll_of_assemble h
  have hlabels := lt_of_labelProblem_none (labelProblem_of_assemble h)
  rw [programWf_iff, expandAll_length hall]
  exact expandAll_wf hlabels hall (Nat.zero_add _).le

end Sys2Proof.Proofs
end
